-- ==== Sys2Proof/Word.lean ====
section
/-! DEFINITION. The word types of the CHIP-8 core (spec/00_scope.md R5, R9): 8-bit bytes, 16-bit words,
register numbers, and the 16 key flags as one mask. All values are unsigned (R9, R93). -/

namespace Sys2Proof

/-- An 8-bit value: a V register, a timer, a memory byte, a framebuffer byte (R5). -/
abbrev Byte := BitVec 8

/-- A 16-bit value: `I`, `pc`, `sp`, an instruction word (R5, R90). -/
abbrev Word := BitVec 16

/-- The number of a general register V0..VF; every value of the 4-bit field names one (R21). -/
abbrev Reg := Fin 16

/-- VF, the register that doubles as the flag register (R22). -/
abbrev Reg.vf : Reg := 15

/-- V0, the offset register of BNNN (R21). -/
abbrev Reg.v0 : Reg := 0

/-- Sixteen one-bit key flags, bit `k` for key `k` (R34, R38). -/
abbrev KeyMask := BitVec 16

/-- Whether the flag of key `k` is 1. -/
def KeyMask.has (m : KeyMask) (k : Fin 16) : Bool := m.getLsbD k.val

end Sys2Proof
end

