-- ==== Sys2Proof/Syntax.lean ====
section
/-! DEFINITION. The 34 instructions of spec/30_encoding.md R95, one constructor for each row of
spec/opcode_table.json, with the operand tuple that R103 says the decoder keeps. -/

namespace Sys2Proof

/-- One decoded instruction. `x`, `y` are register numbers, `nn` and `nnn` the immediates of R91, `n` the number
of sprite rows (a count, so a Nat; WellFormed bounds it by the width of its field). -/
inductive Instr where
  /-- `00E0` -/
  | cls
  /-- `00EE` -/
  | rts
  /-- `1NNN` -/
  | jump (nnn : BitVec 12)
  /-- `2NNN` -/
  | call (nnn : BitVec 12)
  /-- `3XNN` -/
  | skipEqImm (x : Reg) (nn : Byte)
  /-- `4XNN` -/
  | skipNeImm (x : Reg) (nn : Byte)
  /-- `5XY0` -/
  | skipEqReg (x y : Reg)
  /-- `6XNN` -/
  | mvi (x : Reg) (nn : Byte)
  /-- `7XNN` -/
  | adi (x : Reg) (nn : Byte)
  /-- `8XY0` -/
  | mov (x y : Reg)
  /-- `8XY1` -/
  | or (x y : Reg)
  /-- `8XY2` -/
  | and (x y : Reg)
  /-- `8XY3` -/
  | xor (x y : Reg)
  /-- `8XY4` -/
  | add (x y : Reg)
  /-- `8XY5` -/
  | sub (x y : Reg)
  /-- `8XY6`; `y` is encoded and not used (R98) -/
  | shr (x y : Reg)
  /-- `8XY7` -/
  | subn (x y : Reg)
  /-- `8XYE`; `y` is encoded and not used (R98) -/
  | shl (x y : Reg)
  /-- `9XY0` -/
  | skipNeReg (x y : Reg)
  /-- `ANNN` -/
  | mviI (nnn : BitVec 12)
  /-- `BNNN` -/
  | jumpV0 (nnn : BitVec 12)
  /-- `CXNN` -/
  | rnd (x : Reg) (nn : Byte)
  /-- `DXYN` -/
  | sprite (x y : Reg) (n : Nat)
  /-- `EX9E` -/
  | skipKey (x : Reg)
  /-- `EXA1` -/
  | skipNkey (x : Reg)
  /-- `FX07` -/
  | getDelay (x : Reg)
  /-- `FX0A` -/
  | key (x : Reg)
  /-- `FX15` -/
  | setDelay (x : Reg)
  /-- `FX18` -/
  | setSound (x : Reg)
  /-- `FX1E` -/
  | adiI (x : Reg)
  /-- `FX29` -/
  | spritechar (x : Reg)
  /-- `FX33` -/
  | bcd (x : Reg)
  /-- `FX55` -/
  | storem (x : Reg)
  /-- `FX65` -/
  | loadm (x : Reg)
deriving DecidableEq, Repr

end Sys2Proof
end

