-- ==== Sys2Proof/WellFormed.lean ====
section
/-! DEFINITION. Which terms of Instr are instructions of the machine. Register numbers and the immediates NN and
NNN carry their field's width in their types and every value of them is legal (R21, R93). The one operand whose
type does not bound it is the row count of DXYN, a 4-bit field: N is 0..15 (R93). -/

namespace Sys2Proof

/-- The instruction's operands fit the fields of R91. -/
def Instr.wellFormed : Instr → Bool
  | .cls => true
  | .rts => true
  | .jump _ => true
  | .call _ => true
  | .skipEqImm _ _ => true
  | .skipNeImm _ _ => true
  | .skipEqReg _ _ => true
  | .mvi _ _ => true
  | .adi _ _ => true
  | .mov _ _ => true
  | .or _ _ => true
  | .and _ _ => true
  | .xor _ _ => true
  | .add _ _ => true
  | .sub _ _ => true
  | .shr _ _ => true
  | .subn _ _ => true
  | .shl _ _ => true
  | .skipNeReg _ _ => true
  | .mviI _ => true
  | .jumpV0 _ => true
  | .rnd _ _ => true
  | .sprite _ _ n => decide (n < 16)
  | .skipKey _ => true
  | .skipNkey _ => true
  | .getDelay _ => true
  | .key _ => true
  | .setDelay _ => true
  | .setSound _ => true
  | .adiI _ => true
  | .spritechar _ => true
  | .bcd _ => true
  | .storem _ => true
  | .loadm _ => true

end Sys2Proof
end

