-- ==== Sys2Proof/Decode.lean ====
section
/-! DEFINITION. The decoder and the encoder of spec/30_encoding.md: the fields of R91, the two-level dispatch of
R96, total on any bytes, and the encoder that puts each operand back in its field (R102). `opcodeRows` is the list
of R95 as it stands there, for statements that compare the dispatch with the list. -/

namespace Sys2Proof

/-- Why bytes are no instruction. -/
inductive DecodeError where
  /-- The word matches no row of R95 (R99): a step that fetches it raises UnimplementedOpcode (R210). -/
  | undefinedWord (op : Word)
  /-- Fewer than two bytes were given; a fetch always gives two (R90), so the machine never meets it. -/
  | truncated
deriving DecidableEq, Repr

/-- What decoding answers: what was read, or the rejection by name. -/
inductive Decoded (α : Type) where
  | ok (a : α)
  | rejected (e : DecodeError)
deriving DecidableEq, Repr

/-- T, the family nibble `op[15:12]` (R91). -/
def fieldT (op : Word) : BitVec 4 := op.extractLsb' 12 4

/-- X, the register number `op[11:8]` (R91). -/
def fieldX (op : Word) : Reg := (op.extractLsb' 8 4).toFin

/-- Y, the register number `op[7:4]` (R91). -/
def fieldY (op : Word) : Reg := (op.extractLsb' 4 4).toFin

/-- N, the nibble `op[3:0]` (R91). -/
def fieldN (op : Word) : BitVec 4 := op.extractLsb' 0 4

/-- NN, the byte `op[7:0]` (R91). -/
def fieldNN (op : Word) : Byte := op.extractLsb' 0 8

/-- NNN, the 12 bits `op[11:0]` (R91). -/
def fieldNNN (op : Word) : BitVec 12 := op.extractLsb' 0 12

/-- Family 0x8, dispatched on the bottom nibble (R94, R96). -/
def decodeFamily8 (op : Word) : Decoded Instr :=
  match fieldN op with
  | 0x0 => .ok (.mov (fieldX op) (fieldY op))
  | 0x1 => .ok (.or (fieldX op) (fieldY op))
  | 0x2 => .ok (.and (fieldX op) (fieldY op))
  | 0x3 => .ok (.xor (fieldX op) (fieldY op))
  | 0x4 => .ok (.add (fieldX op) (fieldY op))
  | 0x5 => .ok (.sub (fieldX op) (fieldY op))
  | 0x6 => .ok (.shr (fieldX op) (fieldY op))
  | 0x7 => .ok (.subn (fieldX op) (fieldY op))
  | 0xE => .ok (.shl (fieldX op) (fieldY op))
  | _ => .rejected (.undefinedWord op)

/-- Family 0xE, dispatched on the bottom byte (R94, R96). -/
def decodeFamilyE (op : Word) : Decoded Instr :=
  match fieldNN op with
  | 0x9E => .ok (.skipKey (fieldX op))
  | 0xA1 => .ok (.skipNkey (fieldX op))
  | _ => .rejected (.undefinedWord op)

/-- Family 0xF, dispatched on the bottom byte (R94, R96). -/
def decodeFamilyF (op : Word) : Decoded Instr :=
  match fieldNN op with
  | 0x07 => .ok (.getDelay (fieldX op))
  | 0x0A => .ok (.key (fieldX op))
  | 0x15 => .ok (.setDelay (fieldX op))
  | 0x18 => .ok (.setSound (fieldX op))
  | 0x1E => .ok (.adiI (fieldX op))
  | 0x29 => .ok (.spritechar (fieldX op))
  | 0x33 => .ok (.bcd (fieldX op))
  | 0x55 => .ok (.storem (fieldX op))
  | 0x65 => .ok (.loadm (fieldX op))
  | _ => .rejected (.undefinedWord op)

/-- The decoder as a total function of the 16-bit word (R96). It depends on no machine state. -/
def decodeWord (op : Word) : Decoded Instr :=
  match fieldT op with
  | 0x0 =>
    if op = 0x00E0 then .ok .cls
    else if op = 0x00EE then .ok .rts
    else .rejected (.undefinedWord op)
  | 0x1 => .ok (.jump (fieldNNN op))
  | 0x2 => .ok (.call (fieldNNN op))
  | 0x3 => .ok (.skipEqImm (fieldX op) (fieldNN op))
  | 0x4 => .ok (.skipNeImm (fieldX op) (fieldNN op))
  | 0x5 => if fieldN op = 0 then .ok (.skipEqReg (fieldX op) (fieldY op)) else .rejected (.undefinedWord op)
  | 0x6 => .ok (.mvi (fieldX op) (fieldNN op))
  | 0x7 => .ok (.adi (fieldX op) (fieldNN op))
  | 0x8 => decodeFamily8 op
  | 0x9 => if fieldN op = 0 then .ok (.skipNeReg (fieldX op) (fieldY op)) else .rejected (.undefinedWord op)
  | 0xA => .ok (.mviI (fieldNNN op))
  | 0xB => .ok (.jumpV0 (fieldNNN op))
  | 0xC => .ok (.rnd (fieldX op) (fieldNN op))
  | 0xD => .ok (.sprite (fieldX op) (fieldY op) (fieldN op).toNat)
  | 0xE => decodeFamilyE op
  | 0xF => decodeFamilyF op
  | _ => .rejected (.undefinedWord op)

/-- Two bytes as one big-endian instruction word (R64, R90). -/
def wordOfBytes (b0 b1 : Byte) : Word := b0 ++ b1

/-- Decoding any list of bytes: the instruction at its head and the bytes after it (R90: always two bytes). -/
def decode : List Byte → Decoded (Instr × List Byte)
  | b0 :: b1 :: rest =>
    match decodeWord (wordOfBytes b0 b1) with
    | .ok i => .ok (i, rest)
    | .rejected e => .rejected e
  | _ => .rejected .truncated

/-- A register number as its 4-bit field. -/
def regBits (x : Reg) : BitVec 4 := BitVec.ofNat 4 x.val

/-- Format A of R92: family and 12-bit address. -/
def wordA (t : BitVec 4) (nnn : BitVec 12) : Word := t ++ nnn

/-- Format XI of R92: family, register, byte immediate. -/
def wordXI (t : BitVec 4) (x : Reg) (nn : Byte) : Word := t ++ regBits x ++ nn

/-- Formats XY and XYN of R92: family, two registers, a nibble (fixed or immediate). -/
def wordXYN (t : BitVec 4) (x y : Reg) (n : BitVec 4) : Word := t ++ regBits x ++ regBits y ++ n

/-- The word of an instruction: its row's fixed bits with each operand in its field (R92, R95, R102). Format XS
is format XI with the sub-opcode byte in place of the immediate. -/
def encodeWord : Instr → Word
  | .cls => 0x00E0
  | .rts => 0x00EE
  | .jump nnn => wordA 0x1 nnn
  | .call nnn => wordA 0x2 nnn
  | .skipEqImm x nn => wordXI 0x3 x nn
  | .skipNeImm x nn => wordXI 0x4 x nn
  | .skipEqReg x y => wordXYN 0x5 x y 0x0
  | .mvi x nn => wordXI 0x6 x nn
  | .adi x nn => wordXI 0x7 x nn
  | .mov x y => wordXYN 0x8 x y 0x0
  | .or x y => wordXYN 0x8 x y 0x1
  | .and x y => wordXYN 0x8 x y 0x2
  | .xor x y => wordXYN 0x8 x y 0x3
  | .add x y => wordXYN 0x8 x y 0x4
  | .sub x y => wordXYN 0x8 x y 0x5
  | .shr x y => wordXYN 0x8 x y 0x6
  | .subn x y => wordXYN 0x8 x y 0x7
  | .shl x y => wordXYN 0x8 x y 0xE
  | .skipNeReg x y => wordXYN 0x9 x y 0x0
  | .mviI nnn => wordA 0xA nnn
  | .jumpV0 nnn => wordA 0xB nnn
  | .rnd x nn => wordXI 0xC x nn
  | .sprite x y n => wordXYN 0xD x y (BitVec.ofNat 4 n)
  | .skipKey x => wordXI 0xE x 0x9E
  | .skipNkey x => wordXI 0xE x 0xA1
  | .getDelay x => wordXI 0xF x 0x07
  | .key x => wordXI 0xF x 0x0A
  | .setDelay x => wordXI 0xF x 0x15
  | .setSound x => wordXI 0xF x 0x18
  | .adiI x => wordXI 0xF x 0x1E
  | .spritechar x => wordXI 0xF x 0x29
  | .bcd x => wordXI 0xF x 0x33
  | .storem x => wordXI 0xF x 0x55
  | .loadm x => wordXI 0xF x 0x65

/-- The two bytes of an instruction, high byte first (R64, R90). -/
def encode (i : Instr) : List Byte :=
  [(encodeWord i).extractLsb' 8 8, (encodeWord i).extractLsb' 0 8]

/-- The mnemonic of R95 and R103, as spec/opcode_table.json spells it. -/
def Instr.mnemonic : Instr → String
  | .cls => "CLS"
  | .rts => "RTS"
  | .jump _ => "JUMP"
  | .call _ => "CALL"
  | .skipEqImm _ _ => "SKIP_EQ_IMM"
  | .skipNeImm _ _ => "SKIP_NE_IMM"
  | .skipEqReg _ _ => "SKIP_EQ_REG"
  | .mvi _ _ => "MVI"
  | .adi _ _ => "ADI"
  | .mov _ _ => "MOV"
  | .or _ _ => "OR"
  | .and _ _ => "AND"
  | .xor _ _ => "XOR"
  | .add _ _ => "ADD"
  | .sub _ _ => "SUB"
  | .shr _ _ => "SHR"
  | .subn _ _ => "SUBN"
  | .shl _ _ => "SHL"
  | .skipNeReg _ _ => "SKIP_NE_REG"
  | .mviI _ => "MVI_I"
  | .jumpV0 _ => "JUMP_V0"
  | .rnd _ _ => "RND"
  | .sprite _ _ _ => "SPRITE"
  | .skipKey _ => "SKIP_KEY"
  | .skipNkey _ => "SKIP_NKEY"
  | .getDelay _ => "GET_DELAY"
  | .key _ => "KEY"
  | .setDelay _ => "SET_DELAY"
  | .setSound _ => "SET_SOUND"
  | .adiI _ => "ADI_I"
  | .spritechar _ => "SPRITECHAR"
  | .bcd _ => "BCD"
  | .storem _ => "STOREM"
  | .loadm _ => "LOADM"

/-- One row of the list of R95: mnemonic, match and mask. -/
structure OpcodeRow where
  mnemonic : String
  pattern : Word
  mask : Word
deriving DecidableEq, Repr

/-- A word is the instruction of a row exactly when `(op & mask) = match` (R94). -/
def OpcodeRow.matchesWord (r : OpcodeRow) (op : Word) : Bool := decide (op &&& r.mask = r.pattern)

/-- The complete list of defined instructions, rows 1 to 34 of R95 in its order. -/
def opcodeRows : List OpcodeRow :=
  [⟨"CLS", 0x00E0, 0xFFFF⟩, ⟨"RTS", 0x00EE, 0xFFFF⟩] ++
  [⟨"JUMP", 0x1000, 0xF000⟩, ⟨"CALL", 0x2000, 0xF000⟩] ++
  [⟨"SKIP_EQ_IMM", 0x3000, 0xF000⟩, ⟨"SKIP_NE_IMM", 0x4000, 0xF000⟩, ⟨"SKIP_EQ_REG", 0x5000, 0xF00F⟩] ++
  [⟨"MVI", 0x6000, 0xF000⟩, ⟨"ADI", 0x7000, 0xF000⟩] ++
  [⟨"MOV", 0x8000, 0xF00F⟩, ⟨"OR", 0x8001, 0xF00F⟩, ⟨"AND", 0x8002, 0xF00F⟩, ⟨"XOR", 0x8003, 0xF00F⟩] ++
  [⟨"ADD", 0x8004, 0xF00F⟩, ⟨"SUB", 0x8005, 0xF00F⟩, ⟨"SHR", 0x8006, 0xF00F⟩, ⟨"SUBN", 0x8007, 0xF00F⟩] ++
  [⟨"SHL", 0x800E, 0xF00F⟩, ⟨"SKIP_NE_REG", 0x9000, 0xF00F⟩] ++
  [⟨"MVI_I", 0xA000, 0xF000⟩, ⟨"JUMP_V0", 0xB000, 0xF000⟩, ⟨"RND", 0xC000, 0xF000⟩, ⟨"SPRITE", 0xD000, 0xF000⟩] ++
  [⟨"SKIP_KEY", 0xE09E, 0xF0FF⟩, ⟨"SKIP_NKEY", 0xE0A1, 0xF0FF⟩] ++
  [⟨"GET_DELAY", 0xF007, 0xF0FF⟩, ⟨"KEY", 0xF00A, 0xF0FF⟩, ⟨"SET_DELAY", 0xF015, 0xF0FF⟩] ++
  [⟨"SET_SOUND", 0xF018, 0xF0FF⟩, ⟨"ADI_I", 0xF01E, 0xF0FF⟩, ⟨"SPRITECHAR", 0xF029, 0xF0FF⟩] ++
  [⟨"BCD", 0xF033, 0xF0FF⟩, ⟨"STOREM", 0xF055, 0xF0FF⟩, ⟨"LOADM", 0xF065, 0xF0FF⟩]

/-- The word that a row of spec/opcode_table.json stands for: `w` with every bit from `nbits` on 0. -/
def tableWord (nbits w : Nat) : Word := BitVec.ofNat 16 (w % 2 ^ nbits)

/-- The instruction the decoder reads from a word numbered as spec/opcode_table.json numbers it (bit 0 least
significant): the word is laid out big-endian (R90) and the two bytes are decoded. -/
def decodeTableWord (nbits w : Nat) : Option Instr :=
  match decode [(tableWord nbits w).extractLsb' 8 8, (tableWord nbits w).extractLsb' 0 8] with
  | .ok (i, _) => some i
  | .rejected _ => none

end Sys2Proof
end

