-- ==== Sys2Proof/Config.lean ====
section
/-! DEFINITION. What is fixed for the machine: the sizes of R5, the parameter `SP_INIT` (R6), the font bytes
(R31) and the free value `rnd8` (R151). The five quirk flags (R8) are constant inputs held in State, because
R20 lists them in the complete state; their default setting is `Machine.Quirks.canonical`. -/

namespace Sys2Proof

/-- `MEM_SIZE` (R5). -/
abbrev Config.memSize : Nat := 4096

/-- `FB_W`, the columns of the grid (R5). -/
abbrev Config.fbWidth : Nat := 64

/-- `FB_H`, the rows of the grid (R5). -/
abbrev Config.fbHeight : Nat := 32

/-- `FB_BYTES` (R5). -/
abbrev Config.fbBytes : Nat := 256

/-- `FONT_BASE` (R5). -/
abbrev Config.fontBase : Word := 0x000

/-- `FONT_GLYPH_BYTES` (R5). -/
abbrev Config.fontGlyphBytes : Nat := 5

/-- `PROG_BASE`, where the ROM is loaded and where execution begins (R5, R241). -/
abbrev Config.progBase : Word := 0x200

/-- `ROM_MAX` (R5, R243). -/
abbrev Config.romMax : Nat := 3584

/-- `SP_INIT`, the value of `sp` at reset (R6; the spec's decision D5, log entry 2). -/
abbrev Config.spInit : Word := 0x1000

/-- The 80 font bytes, digit by digit (R31; the spec takes them from general knowledge, log entry 3). -/
def Config.font : List Byte :=
  [0xF0, 0x90, 0x90, 0x90, 0xF0] ++   -- 0
  [0x20, 0x60, 0x20, 0x20, 0x70] ++   -- 1
  [0xF0, 0x10, 0xF0, 0x80, 0xF0] ++   -- 2
  [0xF0, 0x10, 0xF0, 0x10, 0xF0] ++   -- 3
  [0x90, 0x90, 0xF0, 0x10, 0x10] ++   -- 4
  [0xF0, 0x80, 0xF0, 0x10, 0xF0] ++   -- 5
  [0xF0, 0x80, 0xF0, 0x90, 0xF0] ++   -- 6
  [0xF0, 0x10, 0x20, 0x40, 0x40] ++   -- 7
  [0xF0, 0x90, 0xF0, 0x90, 0xF0] ++   -- 8
  [0xF0, 0x90, 0xF0, 0x10, 0xF0] ++   -- 9
  [0xF0, 0x90, 0xF0, 0x90, 0x90] ++   -- A
  [0xE0, 0x90, 0xE0, 0x90, 0xE0] ++   -- B
  [0xF0, 0x80, 0x80, 0x80, 0xF0] ++   -- C
  [0xE0, 0x90, 0x90, 0x90, 0xE0] ++   -- D
  [0xF0, 0x80, 0xF0, 0x80, 0xF0] ++   -- E
  [0xF0, 0x80, 0xF0, 0x80, 0x80]      -- F

/-- `rnd8()`, the random byte of CXNN: a free value, one for each draw (R151, R41, U2; log entry 1). It has no
body, so nothing can be proved of it and a claim holds for every draw. -/
opaque Config.rnd8 : Nat → Byte

end Sys2Proof
end

