-- ==== Sys2Proof/Machine/State.lean ====
section
/-! DEFINITION. The complete state of the core (spec/10_state.md R20) as plain data, the reasons a step can stop,
and the state after reset (R42, R240). Two fields at the end are the model's own, not the spec's: `draws`, which
numbers the free random bytes, and `schedule`, the events that have been raised and not yet performed. -/

namespace Sys2Proof.Machine

/-- Main memory (R29): the bytes that differ from their reset contents, addresses rising (`Memory.wf`, Ops). -/
abbrev Memory := List Host.Cell

/-- The key-wait state machine (R37): "States: `Idle`, `Waiting`." -/
inductive KeyWait where
  | idle
  | waiting
deriving DecidableEq, Repr

/-- The five quirk flags (R8, R39): constant inputs of the core. -/
structure Quirks where
  /-- `Q_SHIFT_VY` -/
  shiftVy : Bool
  /-- `Q_LOADSTORE_INC_I` -/
  loadStoreIncI : Bool
  /-- `Q_SPRITE_WRAP` -/
  spriteWrap : Bool
  /-- `Q_FB_BYTE_PER_PIXEL` -/
  fbBytePerPixel : Bool
  /-- `Q_SELF_JUMP_HALT` -/
  selfJumpHalt : Bool
deriving DecidableEq, Repr

/-- The document's defaults, 0 1 0 0 1 (R8, R42). -/
def Quirks.canonical : Quirks :=
  { shiftVy := false, loadStoreIncI := true, spriteWrap := false, fbBytePerPixel := false, selfJumpHalt := true }

/-- The atomic events by which the machine changes state (R12, R222). -/
inductive Event where
  /-- A turn of the sequencer: one instruction, if the core is running (R27). -/
  | step
  /-- The 60 Hz countdown engine (R203). -/
  | tick
  /-- The host sets the flag of key `k` (R225). -/
  | keySet (k : Fin 16) (v : Bool)
  /-- The presenter clears the redraw flag (R226). -/
  | redrawAck
  /-- The host's external quit request (R227). -/
  | quit
  /-- The host resets the core (R240). -/
  | reset
  /-- The loader copies a ROM image to 0x200 onward (R243). -/
  | load (rom : List Byte)
deriving DecidableEq, Repr

/-- The state of the core (R20). -/
structure State where
  /-- V0..VF; VF is also the flag register (R21, R22) -/
  v : Vector Byte 16
  /-- I, the index register (R24) -/
  i : Word
  /-- PC (R25) -/
  pc : Word
  /-- SP (R26) -/
  sp : Word
  /-- DT, the delay timer (R28) -/
  dt : Byte
  /-- ST, the sound timer (R28) -/
  st : Byte
  /-- main memory (R29) -/
  mem : Memory
  /-- the framebuffer, 256 bytes (R32) -/
  fb : Vector Byte 256
  /-- the redraw flag (R33) -/
  redraw : Bool
  /-- key[0..15], the live key flags (R34) -/
  keys : KeyMask
  /-- the halt flag (R35) -/
  halt : Bool
  /-- the fault latch (R36) -/
  fault : Bool
  /-- the reported address (R36) -/
  faultAddr : Word
  /-- the first reported byte (R36) -/
  faultB0 : Byte
  /-- the second reported byte (R36) -/
  faultB1 : Byte
  /-- kw (R37) -/
  kw : KeyWait
  /-- kw_prev[0..15] (R38) -/
  kwPrev : KeyMask
  /-- kw_armed[0..15] (R38) -/
  kwArmed : KeyMask
  /-- the five quirk flags, constant (R39) -/
  quirks : Quirks
  /-- THE MODEL'S OWN (log entry 1): how many random bytes have been drawn -/
  draws : Nat
  /-- THE MODEL'S OWN (log entry 4): the events raised and not yet performed, in the order they happen -/
  schedule : List Event
deriving DecidableEq, Repr

/-- Why the machine stops. Both are raised by Machine/Step.lean alone, and only when the core can issue no step and
no event is left to happen: the end of a run (R229). No instruction's meaning ends in a fault. -/
inductive Fault where
  /-- `halt = 1`: the normal end of a run; the sequencer issues no step (R221, R229). Safe: nothing is claimed of a
  core that no longer executes (log entry 5). -/
  | halted
  /-- `fault = 1`: the abnormal end, with the latched report (R211, R213). Safe, as above (log entry 5). -/
  | unimplementedOpcode (addr : Word) (b0 b1 : Byte)
deriving DecidableEq, Repr

/-- Why the model gives no next state. -/
inductive Refusal where
  /-- Raised by Machine/Dispatch.lean for an instruction that has no meaning yet; safe. No arm does so now. -/
  | notModelled (mnemonic : String)
  /-- Raised by an instruction that depends on a quirk flag (SHR, SHL, STOREM, LOADM, SPRITE, CLS, JUMP, JUMP_V0),
  when that flag is not at its default: "a model implements the default column only and refuses any other setting" (R8, U11). Safe: no
  event changes a flag (R39) and reset has them at their defaults, so no run meets it (log entry 6). -/
  | quirkSetting
deriving DecidableEq, Repr

/-- The state after the reset event and before load (R42, R240). The fault report and the key-wait masks have no
value in the spec at reset and are 0 here (log entry 7). -/
def State.reset : State where
  v := Vector.replicate 16 0
  i := 0x0000
  pc := Config.progBase
  sp := Config.spInit
  dt := 0x00
  st := 0x00
  mem := []
  fb := Vector.replicate 256 0
  redraw := false
  keys := 0
  halt := false
  fault := false
  faultAddr := 0
  faultB0 := 0
  faultB1 := 0
  kw := .idle
  kwPrev := 0
  kwArmed := 0
  quirks := Quirks.canonical
  draws := 0
  schedule := []

end Sys2Proof.Machine
end

