-- ==== Sys2Proof/Machine/Ops.lean ====
section
/-! DEFINITION. The named operations over memory, registers, stack, framebuffer and key masks, and the raising of the
core's one exception. Every access to state that has behaviour of its own goes through here: masking (R60), byte order
(R63, R64), the canonical form of memory, the pixel layout (R32). -/

namespace Sys2Proof.Machine

/-! ### The store -/

/-- What a byte that memory does not list reads as: its contents after reset, the font table at 0x000..0x04F and
0x00 elsewhere (R29, R31, R42; log entries 3 and 8). -/
def Memory.unlisted (a : Nat) : Byte := Config.font.getD a 0x00

/-- The byte at index `a` of the store. -/
def Memory.read : Memory → Nat → Byte
  | [], a => Memory.unlisted a
  | (k, v) :: rest, a => if k = a then v else Memory.read rest a

/-- A cell in front of a memory, left out where it holds what an unlisted address reads as. -/
def Memory.cons (a : Nat) (b : Byte) (m : Memory) : Memory :=
  if b = Memory.unlisted a then m else (a, b) :: m

/-- The store with byte `b` at index `a` and every other byte as it was (R62), in canonical form. -/
def Memory.write : Memory → Nat → Byte → Memory
  | [], a, b => Memory.cons a b []
  | (k, v) :: rest, a, b =>
    if a < k then Memory.cons a b ((k, v) :: rest)
    else if a = k then Memory.cons a b rest
    else (k, v) :: Memory.write rest a b

/-- Addresses rise strictly from `lo`, lie in the store, and no cell holds what an unlisted address reads as. -/
def Memory.wfFrom : Nat → Memory → Bool
  | _, [] => true
  | lo, (a, b) :: rest =>
    decide (lo ≤ a) && decide (a < Config.memSize) && decide (b ≠ Memory.unlisted a) && Memory.wfFrom (a + 1) rest

/-- The canonical form of memory: two memories in it that read the same are the same list. -/
def Memory.wf (m : Memory) : Bool := Memory.wfFrom 0 m

/-- The index of an address in the store: the address reduced mod 4096, the only place where it is (R60). -/
def memIndex (addr : Word) : Nat := addr.toNat % Config.memSize

/-- `MemRead(addr, 1)` (R61). -/
def State.readByte (s : State) (addr : Word) : Byte := s.mem.read (memIndex addr)

/-- `MemWrite(addr, 1, b)` (R62). -/
def State.writeByte (s : State) (addr : Word) (b : Byte) : State :=
  { s with mem := s.mem.write (memIndex addr) b }

/-- `MemRead(addr, 2)`: big-endian, each byte masked on its own (R63). -/
def State.readWord (s : State) (addr : Word) : Word := s.readByte addr ++ s.readByte (addr + 1)

/-- `MemWrite(addr, 2, w)`: the high byte at the lower address, each byte masked on its own (R63). -/
def State.writeWord (s : State) (addr w : Word) : State :=
  (s.writeByte addr (w.extractLsb' 8 8)).writeByte (addr + 1) (w.extractLsb' 0 8)

/-- The bytes of `bs` at `addr`, `addr + 1`, ... in ascending order. -/
def State.writeBytes (s : State) (addr : Word) : List Byte → State
  | [] => s
  | b :: bs => (s.writeByte addr b).writeBytes (addr + 1) bs

/-! ### General registers -/

/-- `V[x]` (R10, R21). -/
def State.readV (s : State) (x : Reg) : Byte := s.v[x.val]

/-- `V[x] <- b` (R10, R21); every register is writable, VF among them. -/
def State.writeV (s : State) (x : Reg) (b : Byte) : State := { s with v := s.v.set x.val b }

/-- The registers V0..VX in ascending order (R164, R165). -/
def regsUpTo (x : Reg) : List Reg := (List.finRange 16).filter (fun j => decide (j ≤ x))

/-! ### Program counter and stack -/

/-- The prologue's `pc <- (a + 2) mod 65536` (R27). -/
def State.advance (s : State) : State := { s with pc := s.pc + 2 }

/-- `a`, the address of the instruction that executes: during the execute phase `pc` holds `a + 2` (R11, R25;
log entry 9). -/
def State.instrAddr (s : State) : Word := s.pc - 2

/-- A skip that is taken or not: `pc <- (pc + 2) mod 65536` when `taken` (R129). -/
def State.skipIf (s : State) (taken : Bool) : State := if taken then { s with pc := s.pc + 2 } else s

/-- Hold the program counter at the instruction, so that it repeats: `pc <- (pc - 2) mod 65536` (R192). -/
def State.repeatInstr (s : State) : State := { s with pc := s.pc - 2 }

/-- A push: "SP-=2, write at SP" (R26, R122); no bound is tested (R128). -/
def State.push (s : State) (w : Word) : State :=
  { s.writeWord (s.sp - 2) w with sp := s.sp - 2 }

/-- The word a pop reads: "read at SP" (R26, R120). -/
def State.stackTop (s : State) : Word := s.readWord s.sp

/-- The pop's "SP+=2" (R26, R120); no bound is tested (R128). -/
def State.dropTop (s : State) : State := { s with sp := s.sp + 2 }

/-- Go to `target`, and set `halt` when it is the instruction's own address: R121 and R127 at
`Q_SELF_JUMP_HALT = 1`, the one setting their callers admit (R8). The comparison is of 16-bit values. -/
def State.jumpTo (s : State) (target : Word) : State :=
  { s with pc := target, halt := s.halt || decide (target = s.instrAddr) }

/-! ### Framebuffer -/

/-- A framebuffer of 256 bytes (R32). -/
abbrev Framebuffer := Vector Byte 256

/-- `fb[j]`. -/
def Framebuffer.byte (fb : Framebuffer) (j : Nat) : Byte := fb[j]?.getD 0

/-- `FbGet(px, py)`: bit `7 - (px mod 8)` of `fb[py*8 + (px div 8)]` (R32). -/
def Framebuffer.pixel (fb : Framebuffer) (px py : Nat) : Bool :=
  (Framebuffer.byte fb (py * 8 + px / 8)).getLsbD (7 - px % 8)

/-- `FbXor1(px, py)`: invert that pixel (R32). -/
def Framebuffer.flip (fb : Framebuffer) (px py : Nat) : Framebuffer :=
  fb.setIfInBounds (py * 8 + px / 8) (Framebuffer.byte fb (py * 8 + px / 8) ^^^ (0x80#8 >>> (px % 8)))

/-! ### Key masks -/

/-- The least key whose flag is set, if there is one (R192: "the least i with release[i] = 1"). -/
def leastKey (m : KeyMask) : Option (Fin 16) := (List.finRange 16).find? (fun k => m.has k)

/-! ### The quirk flags -/

/-- An effect that the spec gives only while a quirk flag is at its default; refused at any other setting (R8). -/
def atDefault (ok : Bool) (s' : State) : Host.Outcome State Fault Refusal :=
  if ok then .next s' else .refused .quirkSetting

/-! ### Taking the exception -/

/-- `raise UnimplementedOpcode(a, b0, b1)`: the whole of trap entry on this core is the latched report
(R211, R212, R218). There is no return from it: the only way out is reset (R213, R219). -/
def State.raiseUnimplementedOpcode (s : State) (a : Word) (b0 b1 : Byte) : State :=
  { s with fault := true, faultAddr := a, faultB0 := b0, faultB1 := b1 }

/-- The sequencer may issue a step: `halt = 0` and `fault = 0` (R27, R213, R221). -/
def State.running (s : State) : Bool := !s.halt && !s.fault

/-- Why a core that is not running has stopped. A latched fault is never a normal end (R213). -/
def State.stopReason (s : State) : Fault :=
  if s.fault then .unimplementedOpcode s.faultAddr s.faultB0 s.faultB1 else .halted

end Sys2Proof.Machine
end

