-- ==== Sys2Proof/Machine/Flags.lean ====
section
/-! DEFINITION. The flag values that instructions write to VF, always 0x00 or 0x01 (R22): carry of 8XY4, no-borrow of
8XY5 and 8XY7, the bit shifted out of 8XY6 and 8XYE, the collision of DXYN. -/

namespace Sys2Proof.Machine

/-- A flag as the byte written to VF (R22). -/
def flagByte (b : Bool) : Byte := if b then 0x01 else 0x00

/-- Carry out: 1 exactly when `x + y > 255` (R146, R152). -/
def carryFlag (x y : Byte) : Byte := flagByte (decide (x.toNat + y.toNat > 255))

/-- No borrow: 1 exactly when the minuend is at least the subtrahend (R147, R149, R152). -/
def noBorrowFlag (minuend subtrahend : Byte) : Byte := flagByte (decide (minuend.toNat ≥ subtrahend.toNat))

/-- `vx & 1`, the bit 8XY6 shifts out (R148). -/
def lowBitFlag (x : Byte) : Byte := x &&& 1

/-- `(vx >> 7) & 1`, the bit 8XYE shifts out (R150). -/
def highBitFlag (x : Byte) : Byte := (x >>> 7) &&& 1

/-- Result first, flag last: the write order of 8XY4 (R23, R146; log entry 12). -/
def State.writeResultThenFlag (s : State) (x : Reg) (result flag : Byte) : State :=
  (s.writeV x result).writeV Reg.vf flag

/-- Flag first, result last: the write order of 8XY5, 8XY6, 8XY7 and 8XYE (R23, R147 to R150; log entry 12). -/
def State.writeFlagThenResult (s : State) (x : Reg) (result flag : Byte) : State :=
  (s.writeV Reg.vf flag).writeV x result

end Sys2Proof.Machine
end

