-- ==== Sys2Proof/Machine/Operands.lean ====
section
/-! DEFINITION. The operand forms of the instruction set: zero-extended immediates (R93), the one data addressing mode,
register-indirect through `I` with an implied byte offset (R167), the key index of EX9E and EXA1 (R190), the masked
corner of DXYN (R182), the decimal digits of FX33 (R163) and the glyph address of FX29 (R162). -/

namespace Sys2Proof.Machine

/-- `zext_16(NNN)` (R93). -/
def zextAddr (nnn : BitVec 12) : Word := nnn.setWidth 16

/-- `zext_16` of a byte (R9). -/
def zextByte (b : Byte) : Word := b.setWidth 16

/-- `I + k`, the address of the byte at offset `k` (R167); the store masks it (R60). -/
def State.indexed (s : State) (k : Nat) : Word := s.i + BitVec.ofNat 16 k

/-- `vx & 0x0F`, the key named by VX (R190, R191; the spec's decision D10, log entry 10). -/
def keyIndex (vx : Byte) : Fin 16 := (vx.extractLsb' 0 4).toFin

/-- `vx & 63`, the start column of a sprite (R182). -/
def startColumn (vx : Byte) : Nat := (vx &&& 63).toNat

/-- `vy & 31`, the start row of a sprite (R182). -/
def startRow (vy : Byte) : Nat := (vy &&& 31).toNat

/-- Hundreds, tens and units of a byte (R163). -/
def bcdDigits (b : Byte) : List Byte := [b / 100, b / 10 % 10, b % 10]

/-- `FONT_BASE + 5 * zext_16(vx)`; VX is used whole (R162; the spec's decision D16, log entry 11). -/
def glyphAddr (vx : Byte) : Word := Config.fontBase + BitVec.ofNat 16 Config.fontGlyphBytes * zextByte vx

/-- `(I + zext_16(vx)) mod 4096`, the sum formed before the reduction (R161). -/
def sumMod4096 (i : Word) (vx : Byte) : Word := BitVec.ofNat 16 ((i.toNat + vx.toNat) % Config.memSize)

/-- `I + X + 1`, wrapping at 16 bits (R164, R165, R24). -/
def State.indexAfterBlock (s : State) (x : Reg) : Word := s.i + BitVec.ofNat 16 (x.val + 1)

end Sys2Proof.Machine
end

