-- ==== Sys2Proof/Machine/Alu.lean ====
section
/-! DEFINITION. Register load, arithmetic, logic, shift and random instructions (spec/41_alu.md). Operands are read from
the state before any write, and the writes happen in the order the rule lists them (R23). -/

namespace Sys2Proof.Machine

/-- 6XNN (R140). -/
def execMvi (x : Reg) (nn : Byte) (s : State) : Host.Outcome State Fault Refusal :=
  .next (s.writeV x nn)

/-- 7XNN (R141): VF is not written as a flag. -/
def execAdi (x : Reg) (nn : Byte) (s : State) : Host.Outcome State Fault Refusal :=
  .next (s.writeV x (s.readV x + nn))

/-- 8XY0 (R142). -/
def execMov (x y : Reg) (s : State) : Host.Outcome State Fault Refusal :=
  .next (s.writeV x (s.readV y))

/-- 8XY1 (R143): VF is not touched. -/
def execOr (x y : Reg) (s : State) : Host.Outcome State Fault Refusal :=
  .next (s.writeV x (s.readV x ||| s.readV y))

/-- 8XY2 (R144): VF is not touched. -/
def execAnd (x y : Reg) (s : State) : Host.Outcome State Fault Refusal :=
  .next (s.writeV x (s.readV x &&& s.readV y))

/-- 8XY3 (R145): VF is not touched. -/
def execXor (x y : Reg) (s : State) : Host.Outcome State Fault Refusal :=
  .next (s.writeV x (s.readV x ^^^ s.readV y))

/-- 8XY4 (R146): the sum first, the carry last. -/
def execAdd (x y : Reg) (s : State) : Host.Outcome State Fault Refusal :=
  .next (s.writeResultThenFlag x (s.readV x + s.readV y) (carryFlag (s.readV x) (s.readV y)))

/-- 8XY5 (R147): the no-borrow flag first, the difference last. -/
def execSub (x y : Reg) (s : State) : Host.Outcome State Fault Refusal :=
  .next (s.writeFlagThenResult x (s.readV x - s.readV y) (noBorrowFlag (s.readV x) (s.readV y)))

/-- 8XY6 (R148) at `Q_SHIFT_VY = 0`: `V[Y]` is neither read nor written; any other setting is refused (R8). -/
def execShr (x _y : Reg) (s : State) : Host.Outcome State Fault Refusal :=
  atDefault (!s.quirks.shiftVy) (s.writeFlagThenResult x (s.readV x >>> 1) (lowBitFlag (s.readV x)))

/-- 8XY7 (R149): the operands of 8XY5 exchanged; the destination is still `V[X]`. -/
def execSubn (x y : Reg) (s : State) : Host.Outcome State Fault Refusal :=
  .next (s.writeFlagThenResult x (s.readV y - s.readV x) (noBorrowFlag (s.readV y) (s.readV x)))

/-- 8XYE (R150) at `Q_SHIFT_VY = 0`: `V[Y]` is neither read nor written; any other setting is refused (R8). -/
def execShl (x _y : Reg) (s : State) : Host.Outcome State Fault Refusal :=
  atDefault (!s.quirks.shiftVy) (s.writeFlagThenResult x (s.readV x <<< 1) (highBitFlag (s.readV x)))

/-- CXNN (R151): one draw, under the mask NN. -/
def execRnd (x : Reg) (nn : Byte) (s : State) : Host.Outcome State Fault Refusal :=
  .next { s.writeV x (Config.rnd8 s.draws &&& nn) with draws := s.draws + 1 }

end Sys2Proof.Machine
end

