-- ==== Sys2Proof/Machine/Control.lean ====
section
/-! DEFINITION. Control transfer (spec/40_control_flow.md): RTS, JUMP, CALL, the four compare-and-skip instructions and
JUMP_V0. Each meaning runs after the prologue: `pc` already holds `a + 2` (R11). -/

namespace Sys2Proof.Machine

/-- 00EE (R120): pop 16 bits, all of them to `pc`. -/
def execRts (s : State) : Host.Outcome State Fault Refusal :=
  .next { s.dropTop with pc := s.stackTop }

/-- 1NNN (R121) at `Q_SELF_JUMP_HALT = 1`; any other setting is refused (R8). -/
def execJump (nnn : BitVec 12) (s : State) : Host.Outcome State Fault Refusal :=
  atDefault s.quirks.selfJumpHalt (s.jumpTo (zextAddr nnn))

/-- 2NNN (R122): push the return address `pc = a + 2`, then `pc <- NNN`. -/
def execCall (nnn : BitVec 12) (s : State) : Host.Outcome State Fault Refusal :=
  .next { s.push s.pc with pc := zextAddr nnn }

/-- 3XNN (R123). -/
def execSkipEqImm (x : Reg) (nn : Byte) (s : State) : Host.Outcome State Fault Refusal :=
  .next (s.skipIf (s.readV x == nn))

/-- 4XNN (R124). -/
def execSkipNeImm (x : Reg) (nn : Byte) (s : State) : Host.Outcome State Fault Refusal :=
  .next (s.skipIf (s.readV x != nn))

/-- 5XY0 (R125). -/
def execSkipEqReg (x y : Reg) (s : State) : Host.Outcome State Fault Refusal :=
  .next (s.skipIf (s.readV x == s.readV y))

/-- 9XY0 (R126). -/
def execSkipNeReg (x y : Reg) (s : State) : Host.Outcome State Fault Refusal :=
  .next (s.skipIf (s.readV x != s.readV y))

/-- BNNN (R127) at `Q_SELF_JUMP_HALT = 1`; any other setting is refused (R8). The offset register is always V0 and the
sum is not reduced mod 4096. -/
def execJumpV0 (nnn : BitVec 12) (s : State) : Host.Outcome State Fault Refusal :=
  atDefault s.quirks.selfJumpHalt (s.jumpTo (zextAddr nnn + zextByte (s.readV Reg.v0)))

end Sys2Proof.Machine
end

