-- ==== Sys2Proof/Machine/Display.lean ====
section
/-! DEFINITION. Display instructions (spec/43_display.md): CLS and SPRITE. -/

namespace Sys2Proof.Machine

/-- What the loops of DXYN carry: the framebuffer, VF as a flag, and `changed` (R182). -/
structure Blit where
  fb : Framebuffer
  hit : Bool
  changed : Bool
deriving DecidableEq, Repr

/-- One bit of a sprite at column `px`, row `py`: a set bit inside the grid inverts the pixel, after the collision
test; a bit that is clear or clipped at the right edge does nothing (R182). -/
def Blit.drawPixel (c : Blit) (px py : Nat) (bit : Bool) : Blit :=
  if bit && decide (px < Config.fbWidth) then
    { fb := Framebuffer.flip c.fb px py, hit := c.hit || Framebuffer.pixel c.fb px py, changed := true }
  else c

/-- One row of a sprite, most significant bit first (R181, R182). -/
def Blit.drawRow (c : Blit) (x py : Nat) (b : Byte) : Blit :=
  (List.range 8).foldl (fun c col => c.drawPixel (x + col) py (b.getLsbD (7 - col))) c

/-- The N rows of a sprite; a row below the grid is clipped (R182). -/
def Blit.drawSprite (c : Blit) (x y n : Nat) (rowByte : Nat → Byte) : Blit :=
  (List.range n).foldl
    (fun c row => if y + row < Config.fbHeight then c.drawRow x (y + row) (rowByte row) else c) c

/-- The whole blit of DXYN on the state before it: corner masked, `changed` and VF clear at the start (R182). -/
def State.blit (s : State) (x y : Reg) (n : Nat) : Blit :=
  Blit.drawSprite { fb := s.fb, hit := false, changed := false }
    (startColumn (s.readV x)) (startRow (s.readV y)) n (fun row => s.readByte (s.indexed row))

/-- 00E0 (R180), on the bit-packed layout of `Q_FB_BYTE_PER_PIXEL = 0`; any other setting is refused (R8). -/
def execCls (s : State) : Host.Outcome State Fault Refusal :=
  atDefault (!s.quirks.fbBytePerPixel) { s with fb := Vector.replicate 256 0x00, redraw := true }

/-- DXYN (R182) at `Q_SPRITE_WRAP = 0` and `Q_FB_BYTE_PER_PIXEL = 0`; any other setting is refused (R8). -/
def execSprite (x y : Reg) (n : Nat) (s : State) : Host.Outcome State Fault Refusal :=
  atDefault (!s.quirks.spriteWrap && !s.quirks.fbBytePerPixel)
    { s.writeV Reg.vf (flagByte (s.blit x y n).hit) with
      fb := (s.blit x y n).fb, redraw := s.redraw || (s.blit x y n).changed }

end Sys2Proof.Machine
end

