-- ==== Sys2Proof/Machine/Index.lean ====
section
/-! DEFINITION. Index register and memory transfer instructions (spec/42_index_memory.md). -/

namespace Sys2Proof.Machine

/-- ANNN (R160). -/
def execMviI (nnn : BitVec 12) (s : State) : Host.Outcome State Fault Refusal :=
  .next { s with i := zextAddr nnn }

/-- FX1E (R161): the one instruction that reduces `I` itself; no overflow flag. -/
def execAdiI (x : Reg) (s : State) : Host.Outcome State Fault Refusal :=
  .next { s with i := sumMod4096 s.i (s.readV x) }

/-- FX29 (R162). -/
def execSpritechar (x : Reg) (s : State) : Host.Outcome State Fault Refusal :=
  .next { s with i := glyphAddr (s.readV x) }

/-- FX33 (R163): hundreds at `I`, tens at `I + 1`, units at `I + 2`. -/
def execBcd (x : Reg) (s : State) : Host.Outcome State Fault Refusal :=
  .next (s.writeBytes s.i (bcdDigits (s.readV x)))

/-- The loop of FX55: "for i in 0..=X: memory[I+i] = Vi" (R164). -/
def State.storeBlock (s : State) (x : Reg) : State :=
  (regsUpTo x).foldl (fun t j => t.writeByte (s.indexed j.val) (s.readV j)) s

/-- The loop of FX65: "for i in 0..=X: Vi = memory[I+i]" (R165). -/
def State.loadBlock (s : State) (x : Reg) : State :=
  (regsUpTo x).foldl (fun t j => t.writeV j (s.readByte (s.indexed j.val))) s

/-- FX55 (R164) at `Q_LOADSTORE_INC_I = 1`: ends with `I <- I + X + 1`; any other setting is refused (R8). -/
def execStorem (x : Reg) (s : State) : Host.Outcome State Fault Refusal :=
  atDefault s.quirks.loadStoreIncI { s.storeBlock x with i := s.indexAfterBlock x }

/-- FX65 (R165) at `Q_LOADSTORE_INC_I = 1`: ends with `I <- I + X + 1`; any other setting is refused (R8). -/
def execLoadm (x : Reg) (s : State) : Host.Outcome State Fault Refusal :=
  atDefault s.quirks.loadStoreIncI { s.loadBlock x with i := s.indexAfterBlock x }

end Sys2Proof.Machine
end

