-- ==== Sys2Proof/Machine/Keypad.lean ====
section
/-! DEFINITION. Keypad instructions (spec/44_keypad.md): the two level tests and the key wait. The live flags are
`s.keys` as they stand at the step (R34). -/

namespace Sys2Proof.Machine

/-- EX9E (R190). -/
def execSkipKey (x : Reg) (s : State) : Host.Outcome State Fault Refusal :=
  .next (s.skipIf (s.keys.has (keyIndex (s.readV x))))

/-- EXA1 (R191). -/
def execSkipNkey (x : Reg) (s : State) : Host.Outcome State Fault Refusal :=
  .next (s.skipIf (!s.keys.has (keyIndex (s.readV x))))

/-- `press[i]`: up at the previous execution, down now (R192). -/
def State.pressed (s : State) : KeyMask := ~~~s.kwPrev &&& s.keys

/-- `release[i]`: armed, down at the previous execution, up now (R192). -/
def State.released (s : State) : KeyMask := s.kwArmed &&& s.kwPrev &&& ~~~s.keys

/-- FX0A, the entry cycle: snapshot the keys, arm none, hold `pc` (R192). -/
def State.enterKeyWait (s : State) : State :=
  { s with kw := .waiting, kwPrev := s.keys, kwArmed := 0 }.repeatInstr

/-- FX0A, a cycle that sees no release: arm the keys newly pressed, refresh the snapshot, hold `pc` (R192). -/
def State.keepKeyWait (s : State) : State :=
  { s with kwArmed := s.kwArmed ||| s.pressed, kwPrev := s.keys }.repeatInstr

/-- FX0A, the cycle that resolves the wait with key `k`; `pc` stays `a + 2` (R192). -/
def State.resolveKeyWait (s : State) (x : Reg) (k : Fin 16) : State :=
  { s.writeV x (BitVec.ofNat 8 k.val) with kw := .idle }

/-- FX0A (R192; the spec's decision D11, log entry 13). -/
def execKey (x : Reg) (s : State) : Host.Outcome State Fault Refusal :=
  match s.kw with
  | .idle => .next s.enterKeyWait
  | .waiting =>
    match leastKey s.released with
    | some k => .next (s.resolveKeyWait x k)
    | none => .next s.keepKeyWait

end Sys2Proof.Machine
end

