-- ==== Sys2Proof/Machine/Timers.lean ====
section
/-! DEFINITION. Timer instructions (spec/45_timers.md); the countdown itself is the tick event, Machine/Events.lean. -/

namespace Sys2Proof.Machine

/-- FX07 (R200). -/
def execGetDelay (x : Reg) (s : State) : Host.Outcome State Fault Refusal :=
  .next (s.writeV x s.dt)

/-- FX15 (R201). -/
def execSetDelay (x : Reg) (s : State) : Host.Outcome State Fault Refusal :=
  .next { s with dt := s.readV x }

/-- FX18 (R202). -/
def execSetSound (x : Reg) (s : State) : Host.Outcome State Fault Refusal :=
  .next { s with st := s.readV x }

end Sys2Proof.Machine
end

