-- ==== Sys2Proof/Machine/Dispatch.lean ====
section
/-! DEFINITION. The dispatch: one arm for each constructor of Instr, each a direct call of its meaning. -/

namespace Sys2Proof.Machine

def exec (i : Instr) (s : State) : Host.Outcome State Fault Refusal :=
  match i with
  | .cls => Sys2Proof.Machine.execCls s
  | .rts => Sys2Proof.Machine.execRts s
  | .jump nnn => Sys2Proof.Machine.execJump nnn s
  | .call nnn => Sys2Proof.Machine.execCall nnn s
  | .skipEqImm x nn => Sys2Proof.Machine.execSkipEqImm x nn s
  | .skipNeImm x nn => Sys2Proof.Machine.execSkipNeImm x nn s
  | .skipEqReg x y => Sys2Proof.Machine.execSkipEqReg x y s
  | .mvi x nn => Sys2Proof.Machine.execMvi x nn s
  | .adi x nn => Sys2Proof.Machine.execAdi x nn s
  | .mov x y => Sys2Proof.Machine.execMov x y s
  | .or x y => Sys2Proof.Machine.execOr x y s
  | .and x y => Sys2Proof.Machine.execAnd x y s
  | .xor x y => Sys2Proof.Machine.execXor x y s
  | .add x y => Sys2Proof.Machine.execAdd x y s
  | .sub x y => Sys2Proof.Machine.execSub x y s
  | .shr x y => Sys2Proof.Machine.execShr x y s
  | .subn x y => Sys2Proof.Machine.execSubn x y s
  | .shl x y => Sys2Proof.Machine.execShl x y s
  | .skipNeReg x y => Sys2Proof.Machine.execSkipNeReg x y s
  | .mviI nnn => Sys2Proof.Machine.execMviI nnn s
  | .jumpV0 nnn => Sys2Proof.Machine.execJumpV0 nnn s
  | .rnd x nn => Sys2Proof.Machine.execRnd x nn s
  | .sprite x y n => Sys2Proof.Machine.execSprite x y n s
  | .skipKey x => Sys2Proof.Machine.execSkipKey x s
  | .skipNkey x => Sys2Proof.Machine.execSkipNkey x s
  | .getDelay x => Sys2Proof.Machine.execGetDelay x s
  | .key x => Sys2Proof.Machine.execKey x s
  | .setDelay x => Sys2Proof.Machine.execSetDelay x s
  | .setSound x => Sys2Proof.Machine.execSetSound x s
  | .adiI x => Sys2Proof.Machine.execAdiI x s
  | .spritechar x => Sys2Proof.Machine.execSpritechar x s
  | .bcd x => Sys2Proof.Machine.execBcd x s
  | .storem x => Sys2Proof.Machine.execStorem x s
  | .loadm x => Sys2Proof.Machine.execLoadm x s

end Sys2Proof.Machine
end

