-- ==== Sys2Proof/Machine/Sequencer.lean ====
section
/-! DEFINITION. The fetch-decode-execute sequencer (spec/10_state.md R27): one instruction, and the placing of an
instruction word where the next fetch reads it. -/

namespace Sys2Proof.Machine

/-- `op`, the big-endian word at `pc` (R27, R64): an ordinary read of the one store, so it sees every earlier
store (R74); it has no alignment requirement (R66). -/
def State.fetchWord (s : State) : Word := wordOfBytes (s.readByte s.pc) (s.readByte (s.pc + 1))

/-- One instruction: fetch at `a = pc`, advance, then execute the decoded instruction or raise
UnimplementedOpcode with the offending address and raw bytes (R27, R210). -/
def State.stepInstr (s : State) : Host.Outcome State Fault Refusal :=
  match decodeWord s.fetchWord with
  | .ok i => exec i s.advance
  | .rejected _ => .next (s.advance.raiseUnimplementedOpcode s.pc (s.readByte s.pc) (s.readByte (s.pc + 1)))

/-- A turn of the sequencer: it tests `halt` and `fault` first and issues no step while either is set, so the turn
passes and changes nothing (R27, R213, R217, R221). -/
def State.sequencerTurn (s : State) : Host.Outcome State Fault Refusal :=
  if s.running then s.stepInstr else .next s

/-- The state with the word `op` stored at `pc`, a core that may issue a step, and no event ahead of it. -/
def State.placeWord (s : State) (op : Word) : State :=
  { s.writeWord s.pc op with halt := false, fault := false, schedule := [] }

end Sys2Proof.Machine
end

