-- ==== Sys2Proof/Machine/Events.lean ====
section
/-! DEFINITION. The atomic events of spec/60_exceptions.md R222, the launch state (R254), and what the host may observe
(R228). An event has its effect whatever the core is doing: ticks and key changes go on while it is halted, faulted or
waiting for a key (R205; the spec's decision D14, log entry 14). -/

namespace Sys2Proof.Machine

/-- A timer counts down to 0 and stays there (R203, R204). -/
def countDown (t : Byte) : Byte := if t = 0 then 0 else t - 1

/-- The tick event (R203): both timers, and nothing else. -/
def State.tick (s : State) : State := { s with dt := countDown s.dt, st := countDown s.st }

/-- `key_set(k, v)` (R225). -/
def State.keySet (s : State) (k : Fin 16) (v : Bool) : State :=
  { s with keys := (s.keys &&& ~~~(BitVec.twoPow 16 k.val)) ||| (if v then BitVec.twoPow 16 k.val else 0) }

/-- `redraw_ack` (R226). -/
def State.redrawAck (s : State) : State := { s with redraw := false }

/-- `quit` (R227). -/
def State.quit (s : State) : State := { s with halt := true }

/-- The reset event (R240): every piece of state at its reset value. The constant inputs keep their setting (R39), and
the model's own fields are not the core's: the random source and the events still to come go on. -/
def State.resetCore (s : State) : State :=
  { State.reset with quirks := s.quirks, draws := s.draws, schedule := s.schedule }

/-- `load(rom)` (R243). An image longer than 3584 bytes is refused by the loader and never reaches the core, whose
state is unchanged (R243, RS4). -/
def State.load (s : State) (rom : List Byte) : State :=
  if rom.length ≤ Config.romMax then s.writeBytes Config.progBase rom else s

/-- The effect of one event (R222). -/
def perform (e : Event) (s : State) : Host.Outcome State Fault Refusal :=
  match e with
  | .step => s.sequencerTurn
  | .tick => .next s.tick
  | .keySet k v => .next (s.keySet k v)
  | .redrawAck => .next s.redrawAck
  | .quit => .next s.quit
  | .reset => .next s.resetCore
  | .load rom => .next (s.load rom)

/-- `Launched(rom)`: reset, then load, and no other event (R254). -/
def State.launched (rom : List Byte) : State := State.reset.load rom

/-- The events that may occur during a run: all but reset and load (R222, R244). -/
def Event.duringRun : Event → Bool
  | .step => true
  | .tick => true
  | .keySet _ _ => true
  | .redrawAck => true
  | .quit => true
  | .reset => false
  | .load _ => false

/-- What the host may read between events (R228). -/
structure Observation where
  fb : Framebuffer
  redraw : Bool
  halt : Bool
  /-- the report (address and two raw bytes) while `fault = 1` (R36) -/
  report : Option (Word × Byte × Byte)
  pc : Word
  st : Byte
deriving DecidableEq, Repr

/-- Observation changes nothing, so it is a function of the state and no event (R228). -/
def State.observe (s : State) : Observation where
  fb := s.fb
  redraw := s.redraw
  halt := s.halt
  report := if s.fault then some (s.faultAddr, s.faultB0, s.faultB1) else none
  pc := s.pc
  st := s.st

end Sys2Proof.Machine
end

