-- ==== Sys2Proof/Machine/Trace.lean ====
section
/-! DEFINITION. The optional diagnostic trace (spec/30_encoding.md R105): a pure function over a 2-byte instruction,
with no effect on state. -/

namespace Sys2Proof.Machine

/-- `(address, byte0, byte1, mnemonic, operands)` (R105). -/
structure TraceEntry where
  address : Word
  byte0 : Byte
  byte1 : Byte
  mnemonic : String
  operands : List Nat
deriving DecidableEq, Repr

/-- The operand tuple of an instruction, in the order of R103. -/
def operandTuple : Instr → List Nat
  | .cls => []
  | .rts => []
  | .jump nnn => [nnn.toNat]
  | .call nnn => [nnn.toNat]
  | .skipEqImm x nn => [x.val, nn.toNat]
  | .skipNeImm x nn => [x.val, nn.toNat]
  | .skipEqReg x y => [x.val, y.val]
  | .mvi x nn => [x.val, nn.toNat]
  | .adi x nn => [x.val, nn.toNat]
  | .mov x y => [x.val, y.val]
  | .or x y => [x.val, y.val]
  | .and x y => [x.val, y.val]
  | .xor x y => [x.val, y.val]
  | .add x y => [x.val, y.val]
  | .sub x y => [x.val, y.val]
  | .shr x y => [x.val, y.val]
  | .subn x y => [x.val, y.val]
  | .shl x y => [x.val, y.val]
  | .skipNeReg x y => [x.val, y.val]
  | .mviI nnn => [nnn.toNat]
  | .jumpV0 nnn => [nnn.toNat]
  | .rnd x nn => [x.val, nn.toNat]
  | .sprite x y n => [x.val, y.val, n]
  | .skipKey x => [x.val]
  | .skipNkey x => [x.val]
  | .getDelay x => [x.val]
  | .key x => [x.val]
  | .setDelay x => [x.val]
  | .setSound x => [x.val]
  | .adiI x => [x.val]
  | .spritechar x => [x.val]
  | .bcd x => [x.val]
  | .storem x => [x.val]
  | .loadm x => [x.val]

/-- The entry for the bytes at an address; an undefined word is executed as no instruction and has none. -/
def traceEntry (a : Word) (b0 b1 : Byte) : Option TraceEntry :=
  match decodeWord (wordOfBytes b0 b1) with
  | .ok i => some { address := a, byte0 := b0, byte1 := b1, mnemonic := i.mnemonic, operands := operandTuple i }
  | .rejected _ => none

/-- The entry of the instruction that the next step of `s` executes. -/
def State.traceNext (s : State) : Option TraceEntry :=
  traceEntry s.pc (s.readByte s.pc) (s.readByte (s.pc + 1))

end Sys2Proof.Machine
end

