-- ==== Sys2Proof/Machine/Step.lean ====
section
/-! DEFINITION. One step of the machine: the next of the events that change its state (R12). -/

namespace Sys2Proof.Machine

/-- The next event of the schedule happens; where the schedule names none, the sequencer takes its turn (R12, R222,
log entry 4). A core that can issue no step, with no event left to happen, has ended its run (R229). -/
def step (s : State) : Host.Outcome State Fault Refusal :=
  match s.schedule with
  | e :: rest => perform e { s with schedule := rest }
  | [] => if s.running then s.stepInstr else .fault s.stopReason

/-- `s` with the instruction of a table word stored where step fetches its next instruction, a core that may issue a
step, and no event ahead of it. -/
def State.withFetchWord (s : State) (nbits w : Nat) : State := s.placeWord (tableWord nbits w)

end Sys2Proof.Machine
end

