-- ==== Sys2Proof/Safety.lean ====
section
/-! DEFINITION. The terms claims are stated in: the invariant of the machine, what a safe run is, and the plain
readings of the spec's rules that the obligations compare the meanings with (which pixels a sprite covers, when a skip
is taken, when a key has been pressed and released). -/

namespace Sys2Proof.Machine

/-! ### The invariant -/

/-- While a wait is on, every armed key was down at the previous execution of FX0A (R192). -/
def State.keyWaitCoherent (s : State) : Prop := s.kw = .waiting → s.kwArmed &&& ~~~s.kwPrev = 0

/-- What every step keeps: memory in canonical form, `sp` even (R66: it "only ever moves in steps of 2"), and the masks
of a key wait coherent (R192). -/
structure State.Inv (s : State) : Prop where
  memCanonical : s.mem.wf = true
  spEven : s.sp.toNat % 2 = 0
  waitCoherent : s.keyWaitCoherent

/-! ### Safe runs -/

/-- A run of `k` events that has met no undefined word: it goes on without a latched fault, or it has ended normally
(R213, R229). -/
def SafeFor (k : Nat) (s : State) : Prop :=
  match Host.Core.run Sys2Proof.core k s with
  | .next t => State.fault t = false
  | .fault r => r = Fault.halted
  | .refused _ => False

/-- The next event is a turn of the sequencer, named by the schedule or not, and the core may take it (R27). -/
def State.takesStep (s : State) : Prop :=
  (s.schedule = [] ∨ s.schedule.head? = some .step) ∧ s.halt = false ∧ s.fault = false

/-! ### Frames -/

/-- `t` is `s` with `b` in register `x`: nothing else differs. -/
def WritesOnly (x : Reg) (b : Byte) (s t : State) : Prop :=
  t = { s with v := t.v } ∧ t.readV x = b ∧ ∀ z, z ≠ x → t.readV z = s.readV z

/-- `t` is `s` with `b` in register `x` and `f` in VF: nothing else differs. -/
def WritesWithFlag (x : Reg) (b f : Byte) (s t : State) : Prop :=
  t = { s with v := t.v } ∧ t.readV x = b ∧ t.readV Reg.vf = f ∧
    ∀ z, z ≠ x → z ≠ Reg.vf → t.readV z = s.readV z

/-- An outcome with its next state, if it has one, changed by `f`. -/
def mapNext (f : State → State) : Host.Outcome State Fault Refusal → Host.Outcome State Fault Refusal
  | .next t => .next (f t)
  | .fault r => .fault r
  | .refused r => .refused r

/-! ### Skips -/

/-- Whether a skip instruction skips in `s`, by the condition its rule gives (R123 to R126, R190, R191); none for
an instruction that is no skip. -/
def skipCondition : Instr → State → Option Bool
  | .skipEqImm x nn, s => some (decide (s.readV x = nn))
  | .skipNeImm x nn, s => some (decide (s.readV x ≠ nn))
  | .skipEqReg x y, s => some (decide (s.readV x = s.readV y))
  | .skipNeReg x y, s => some (decide (s.readV x ≠ s.readV y))
  | .skipKey x, s => some (s.keys.getLsbD ((s.readV x).toNat % 16))
  | .skipNkey x, s => some (!s.keys.getLsbD ((s.readV x).toNat % 16))
  | _, _ => none

/-! ### Sprites -/

/-- Pixel `(px, py)` lies under a set bit of the sprite that DXYN draws in `s` (R181, R182): row `py - y` of the sprite
is the byte at `I + (py - y)`, and its bit `7 - (px - x)` is the pixel of that column. -/
def State.spriteCovers (s : State) (x y : Reg) (n px py : Nat) : Bool :=
  let x0 := (s.readV x).toNat % 64
  let y0 := (s.readV y).toNat % 32
  decide (x0 ≤ px) && decide (px < x0 + 8) && decide (y0 ≤ py) && decide (py < y0 + n) &&
    (s.readByte (s.indexed (py - y0))).getLsbD (7 - (px - x0))

/-- `(px, py)` is a pixel of the grid (R32). -/
def onGrid (px py : Nat) : Prop := px < 64 ∧ py < 32

/-! ### Key waits -/

/-- One execution of FX0A, standing at `s.pc`, that samples the keys `l`. -/
def keyCycle (x : Reg) (l : KeyMask) (s : State) : State :=
  match exec (.key x) { s with keys := l, pc := s.pc + 2 } with
  | .next t => t
  | _ => s

/-- Successive executions of FX0A at one place, with the keys each of them samples. -/
def keyCycles (x : Reg) (ls : List KeyMask) (s : State) : State := ls.foldl (fun t l => keyCycle x l t) s

/-- In the samples `ls` key `k` is up, later down, and later up again: a full press-then-release (R192). -/
def PressedThenReleased (ls : List KeyMask) (k : Fin 16) : Prop :=
  ∃ p q r, p < q ∧ q < r ∧ r < ls.length ∧
    (ls.getD p 0).has k = false ∧ (ls.getD q 0).has k = true ∧ (ls.getD r 0).has k = false

end Sys2Proof.Machine
end

