-- ==== Sys2Proof/Certificates/Slice0/Obligations.lean ====
section
/-! DEFINITION. The statements for the provers. Each docstring names the rule or section of spec/ it formalises; where a
clause rests on one of the spec's own decisions D<n> or on a choice of the model's, it names that and the log entry.
Instructions are stated through `exec`, on the state after the prologue: `s.pc` is `a + 2` there (R11), so the
instruction's own address `a` is `s.pc - 2`. -/

open Sys2Proof Sys2Proof.Machine

/-! ### Encoding -/

/-- One word of every family, written out from the patterns of R95, decodes to the instruction it stands for, and three
undefined words do not decode (spec/30_encoding.md sections 3 and 4). -/
def Obligations.WrittenWordsDecode : Prop :=
  decode [0b0000_0000, 0b1110_0000] = .ok (.cls, []) ∧
  decode [0b0000_0000, 0b1110_1110] = .ok (.rts, []) ∧
  decode [0b0001_1010, 0b1011_1100] = .ok (.jump 0xABC, []) ∧
  decode [0b0010_1111, 0b1111_1111] = .ok (.call 0xFFF, []) ∧
  decode [0b0011_1010, 0b0111_1111] = .ok (.skipEqImm 10 0x7F, []) ∧
  decode [0b0100_0000, 0b0000_0000] = .ok (.skipNeImm 0 0x00, []) ∧
  decode [0b0101_1010, 0b1011_0000] = .ok (.skipEqReg 10 11, []) ∧
  decode [0b0110_1111, 0b1111_1111] = .ok (.mvi 15 0xFF, []) ∧
  decode [0b0111_0001, 0b0000_0001] = .ok (.adi 1 0x01, []) ∧
  decode [0b1000_1010, 0b1011_1110] = .ok (.shl 10 11, []) ∧
  decode [0b1001_1010, 0b1011_0000] = .ok (.skipNeReg 10 11, []) ∧
  decode [0b1010_0010, 0b0010_0000] = .ok (.mviI 0x220, []) ∧
  decode [0b1011_0011, 0b0000_0000] = .ok (.jumpV0 0x300, []) ∧
  decode [0b1100_0011, 0b0000_1111] = .ok (.rnd 3 0x0F, []) ∧
  decode [0b1101_0001, 0b0010_0101] = .ok (.sprite 1 2 5, []) ∧
  decode [0b1110_0100, 0b1010_0001] = .ok (.skipNkey 4, []) ∧
  decode [0b1111_0011, 0b0000_1010] = .ok (.key 3, []) ∧
  decode [0b0000_0001, 0b0010_0011] = .rejected (.undefinedWord 0x0123) ∧
  decode [0b0101_0001, 0b0010_0001] = .rejected (.undefinedWord 0x5121) ∧
  decode [0b1111_0001, 0b0110_0110] = .rejected (.undefinedWord 0xF166)

/-- Every well-formed instruction decodes from its own two bytes, whatever follows them, with every operand at every
value its field admits. -/
def Obligations.EncodedInstructionDecodesBack : Prop :=
  ∀ (i : Instr) (rest : List Byte), i.wellFormed = true → decode (encode i ++ rest) = .ok (i, rest)

/-- R102: every defined word is the word of the instruction it decodes to, and that instruction is well-formed. -/
def Obligations.DecodedWordEncodesBack : Prop :=
  ∀ (op : Word) (i : Instr), decodeWord op = .ok i → encodeWord i = op ∧ i.wellFormed = true

/-- A word decodes to the instruction of a row of R95 exactly when `(op & mask) = match`, and to no instruction outside
those rows (spec/30_encoding.md section 3, R94 to R96). -/
def Obligations.DefinedExactlyByMaskAndMatch : Prop :=
  (∀ (op : Word) (r : OpcodeRow), r ∈ opcodeRows →
    ((∃ i, decodeWord op = .ok i ∧ i.mnemonic = r.mnemonic) ↔ op &&& r.mask = r.pattern)) ∧
  (∀ (op : Word) (i : Instr), decodeWord op = .ok i → ∃ r ∈ opcodeRows, r.mnemonic = i.mnemonic)

/-- A word matches at most one row (spec/30_encoding.md section 3, R97, which the spec marks derived). -/
def Obligations.AtMostOneRowMatches : Prop :=
  ∀ (op : Word) (r r' : OpcodeRow), r ∈ opcodeRows → r' ∈ opcodeRows →
    op &&& r.mask = r.pattern → op &&& r'.mask = r'.pattern → r = r'

/-- The undefined words are exactly those of R99's list, family by family, and the decoder names each as undefined. -/
def Obligations.UndefinedWordsByFamily : Prop :=
  ∀ op : Word, decodeWord op = .rejected (.undefinedWord op) ↔
    (op.toNat / 4096 = 0x0 ∧ op.toNat ≠ 0x00E0 ∧ op.toNat ≠ 0x00EE) ∨
    (op.toNat / 4096 = 0x5 ∧ op.toNat % 16 ≠ 0) ∨
    (op.toNat / 4096 = 0x8 ∧ 8 ≤ op.toNat % 16 ∧ op.toNat % 16 ≠ 0xE) ∨
    (op.toNat / 4096 = 0x9 ∧ op.toNat % 16 ≠ 0) ∨
    (op.toNat / 4096 = 0xE ∧ op.toNat % 256 ≠ 0x9E ∧ op.toNat % 256 ≠ 0xA1) ∨
    (op.toNat / 4096 = 0xF ∧ op.toNat % 256 ∉ [0x07, 0x0A, 0x15, 0x18, 0x1E, 0x29, 0x33, 0x55, 0x65])

/-! ### Memory -/

/-- Every byte access uses the address reduced mod 4096, and the reduction changes no register (spec/20_memory.md
section 1, R60). -/
def Obligations.AddressesAreMaskedAtTheStore : Prop :=
  ∀ (s : State) (a c : Word) (b : Byte), a.toNat % 4096 = c.toNat % 4096 →
    s.readByte a = s.readByte c ∧ s.writeByte a b = s.writeByte c b ∧
    (s.writeByte a b).i = s.i ∧ (s.writeByte a b).pc = s.pc ∧ (s.writeByte a b).sp = s.sp

/-- R62: a byte write sets the byte at the masked address and nothing else, and writing the same value twice is the
same as writing it once. The premise is the canonical form that the invariant of this file says every step keeps. -/
def Obligations.ByteWriteSetsThatByteOnly : Prop :=
  ∀ (s : State) (a : Word) (b : Byte), s.mem.wf = true →
    s.writeByte a b = { s with mem := (s.writeByte a b).mem } ∧
    (∀ c : Word, (s.writeByte a b).readByte c =
      if c.toNat % 4096 = a.toNat % 4096 then b else s.readByte c) ∧
    (s.writeByte a b).writeByte a b = s.writeByte a b

/-- Stored words are big-endian, the two bytes masked one by one, so that a word that straddles 0xFFF / 0x000 reads
back whole (spec/20_memory.md sections 1 and 2; the straddling case is the spec's decision D4, log entry 15). -/
def Obligations.StoredWordIsBigEndian : Prop :=
  ∀ (s : State) (a w : Word), s.mem.wf = true →
    ((s.writeWord a w).readByte a).toNat = w.toNat / 256 ∧
    ((s.writeWord a w).readByte (a + 1)).toNat = w.toNat % 256 ∧
    (s.writeWord a w).readWord a = w ∧
    ∀ c : Word, c.toNat % 4096 ≠ a.toNat % 4096 → c.toNat % 4096 ≠ (a.toNat + 1) % 4096 →
      (s.writeWord a w).readByte c = s.readByte c

/-- The model's memory is canonical: two memories in that form that read the same at every address of the store are
equal data (the model's own form, log entry 8). -/
def Obligations.CanonicalMemoriesThatReadAlikeAreEqual : Prop :=
  ∀ m m' : Memory, m.wf = true → m'.wf = true → (∀ a, a < 4096 → m.read a = m'.read a) → m = m'

/-! ### The sequencer -/

/-- The prologue (spec/10_state.md section 3, R27; the two bytes masked one by one are the spec's decision D4, log entry
15): where the bytes at `pc` decode, a step of a running core is the decoded instruction on the state
with `pc` advanced by 2; the same holds of a step event that the schedule names. -/
def Obligations.StepRunsTheDecodedInstruction : Prop :=
  (∀ (s : State) (i : Instr), s.schedule = [] → s.halt = false → s.fault = false →
    decode [s.mem.read (s.pc.toNat % 4096), s.mem.read ((s.pc.toNat + 1) % 4096)] = .ok (i, []) →
    step s = exec i { s with pc := s.pc + 2 }) ∧
  (∀ (s : State) (i : Instr) (rest : List Event), s.schedule = .step :: rest → s.halt = false → s.fault = false →
    decode [s.mem.read (s.pc.toNat % 4096), s.mem.read ((s.pc.toNat + 1) % 4096)] = .ok (i, []) →
    step s = exec i { s with pc := s.pc + 2, schedule := rest })

/-- An undefined word latches the report: `fault`, the address and the two raw bytes, and the advanced `pc`; all else
is as it was; the same holds of a step event that the schedule names (spec/60_exceptions.md section 1; the latch is the
spec's decision D12, log entry 16). -/
def Obligations.UndefinedWordLatchesTheReport : Prop :=
  ∀ (s : State) (e : DecodeError), s.halt = false → s.fault = false → decodeWord s.fetchWord = .rejected e →
    (s.schedule = [] → step s = .next { s with
      pc := s.pc + 2, fault := true, faultAddr := s.pc,
      faultB0 := s.mem.read (s.pc.toNat % 4096), faultB1 := s.mem.read ((s.pc.toNat + 1) % 4096) }) ∧
    (∀ rest, s.schedule = .step :: rest → step s = .next { s with
      pc := s.pc + 2, fault := true, faultAddr := s.pc,
      faultB0 := s.mem.read (s.pc.toNat % 4096), faultB1 := s.mem.read ((s.pc.toNat + 1) % 4096),
      schedule := rest })

/-- A halted or faulted core issues no step: a step event passes with no effect, and when no event is left the machine
stops, with the report if there is one (spec/60_exceptions.md sections 1 and 3; the two stops are the model's form of
the end of a run, log entry 5). -/
def Obligations.StoppedCoreIssuesNoStep : Prop :=
  ∀ s : State, s.halt = true ∨ s.fault = true →
    (∀ rest, s.schedule = .step :: rest → step s = .next { s with schedule := rest }) ∧
    (s.schedule = [] → s.fault = true → step s = .fault (.unimplementedOpcode s.faultAddr s.faultB0 s.faultB1)) ∧
    (s.schedule = [] → s.fault = false → step s = .fault .halted)

/-- Nothing but reset clears `halt`, `fault` or the report (spec/60_exceptions.md sections 1 and 3; the spec's
decisions D12 and D13, log entry 16). -/
def Obligations.OnlyResetClearsHaltAndFault : Prop :=
  ∀ s t : State, step s = .next t → s.schedule.head? ≠ some .reset →
    (s.halt = true → t.halt = true) ∧
    (s.fault = true → t.fault = true ∧ t.faultAddr = s.faultAddr ∧ t.faultB0 = s.faultB0 ∧ t.faultB1 = s.faultB1)

/-- With `halt` and `fault` both 0 a step is always possible, and with the quirk flags at their defaults (R39) it gives a
next state: the core is never stuck (spec/60_exceptions.md section 3, R229). The same holds while any event is left to
happen (the model's form of the schedule, log entry 4). -/
def Obligations.RunningCoreIsNeverStuck : Prop :=
  ∀ s : State, s.quirks = Quirks.canonical → (s.halt = false ∧ s.fault = false) ∨ s.schedule ≠ [] →
    ∃ t, step s = .next t

/-- `halt` is set only by the host's quit or by a JUMP or JUMP_V0 to its own address, and then `pc` rests on that jump
(spec/60_exceptions.md section 3). -/
def Obligations.OnlySelfJumpOrQuitHalts : Prop :=
  ∀ s t : State, step s = .next t → s.halt = false → t.halt = true →
    s.schedule.head? = some .quit ∨
    (s.takesStep ∧ t.pc = s.pc ∧
      ∃ nnn, decodeWord s.fetchWord = .ok (.jump nnn) ∨ decodeWord s.fetchWord = .ok (.jumpV0 nnn))

/-- The instruction that a table word decodes to is the one that step runs on `withFetchWord` of any state, at any
program counter (the model's own form of placing a program, log entry 4). -/
def Obligations.WithFetchWordRunsTheTableWord : Prop :=
  ∀ (s : State) (w : Nat) (i : Instr), s.mem.wf = true → decodeTableWord 16 w = some i →
    step (s.withFetchWord 16 w) = exec i { s.withFetchWord 16 w with pc := s.pc + 2 } ∧
    (s.withFetchWord 16 w).pc = s.pc

/-! ### Invariants and whole-machine rules -/

/-- Every step keeps the invariant: canonical memory (the model's own form, log entry 8), an even `sp`
(spec/20_memory.md section 4), coherent key-wait masks (spec/44_keypad.md, R192; the spec's decision D11, log entry 13). -/
def Obligations.EveryStepKeepsTheInvariant : Prop :=
  ∀ s t : State, s.Inv → step s = .next t → t.Inv

/-- The state after reset meets the invariant, and so does the launch state of every ROM (spec/70_reset_and_hazards.md
section 2, R254; that `sp` starts even is the spec's decision D5, log entry 2). -/
def Obligations.ResetAndLaunchMeetTheInvariant : Prop :=
  State.reset.Inv ∧ ∀ rom : List Byte, (State.launched rom).Inv

/-- The quirk flags are at their defaults after reset and no step changes them (spec/10_state.md section 7, R39). -/
def Obligations.QuirkFlagsAreConstant : Prop :=
  State.reset.quirks =
    { shiftVy := false, loadStoreIncI := true, spriteWrap := false, fbBytePerPixel := false, selfJumpHalt := true } ∧
  ∀ s t : State, step s = .next t → t.quirks = s.quirks

/-- Which instructions write which state: the "written by" column of the inventory, and V, I, pc, sp as their rules say
(spec/10_state.md sections 1, 2, 3 and 7); `draws` is the model's own counter of random bytes (log entry 1). -/
def Obligations.EachFieldHasItsWriters : Prop :=
  ∀ (i : Instr) (s t : State), exec i s = .next t →
    ((∃ z, t.readV z ≠ s.readV z) → i.mnemonic ∈ ["MVI", "ADI", "MOV", "OR", "AND", "XOR", "ADD", "SUB", "SHR", "SUBN",
      "SHL", "RND", "SPRITE", "GET_DELAY", "KEY", "LOADM"]) ∧
    (t.i ≠ s.i → i.mnemonic ∈ ["MVI_I", "ADI_I", "SPRITECHAR", "STOREM", "LOADM"]) ∧
    (t.pc ≠ s.pc → i.mnemonic ∈ ["RTS", "JUMP", "CALL", "JUMP_V0", "SKIP_EQ_IMM", "SKIP_NE_IMM", "SKIP_EQ_REG",
      "SKIP_NE_REG", "SKIP_KEY", "SKIP_NKEY", "KEY"]) ∧
    (t.sp ≠ s.sp → i.mnemonic ∈ ["RTS", "CALL"]) ∧
    (t.dt ≠ s.dt → i.mnemonic = "SET_DELAY") ∧
    (t.st ≠ s.st → i.mnemonic = "SET_SOUND") ∧
    ((∃ a, t.readByte a ≠ s.readByte a) → i.mnemonic ∈ ["CALL", "BCD", "STOREM"]) ∧
    (t.fb ≠ s.fb → i.mnemonic ∈ ["CLS", "SPRITE"]) ∧
    (t.redraw ≠ s.redraw → t.redraw = true ∧ i.mnemonic ∈ ["CLS", "SPRITE"]) ∧
    (t.halt ≠ s.halt → t.halt = true ∧ i.mnemonic ∈ ["JUMP", "JUMP_V0"]) ∧
    (t.kw ≠ s.kw ∨ t.kwPrev ≠ s.kwPrev ∨ t.kwArmed ≠ s.kwArmed → i.mnemonic = "KEY") ∧
    (t.draws ≠ s.draws → i.mnemonic = "RND") ∧
    t.keys = s.keys ∧ t.fault = s.fault ∧ t.faultAddr = s.faultAddr ∧ t.faultB0 = s.faultB0 ∧
    t.faultB1 = s.faultB1 ∧ t.quirks = s.quirks ∧ t.schedule = s.schedule

/-- R184: the framebuffer is written only by CLS, SPRITE and reset, and no instruction reads it into a register: with
another framebuffer, an instruction still runs and leaves the same state in every field but the framebuffer itself and
the collision bit of SPRITE in VF. -/
def Obligations.FramebufferIsWrittenAndReadByDisplayOnly : Prop :=
  (∀ s t : State, step s = .next t → t.fb ≠ s.fb →
    s.schedule.head? = some .reset ∨
    (s.takesStep ∧ ∃ i, decodeWord s.fetchWord = .ok i ∧ i.mnemonic ∈ ["CLS", "SPRITE"])) ∧
  (∀ (i : Instr) (s t : State) (fb' : Framebuffer), exec i s = .next t →
    ∃ t', exec i { s with fb := fb' } = .next t' ∧ t' = { t with v := t'.v, fb := t'.fb } ∧
      ∀ z : Reg, t'.readV z ≠ t.readV z → z = Reg.vf ∧ i.mnemonic = "SPRITE")

/-- Of the instructions only FX0A reads and writes the state of the key wait: every other one does the same whatever that
state is, and leaves it as it is. It is Idle after reset (spec/10_state.md section 7, R37 and R38). -/
def Obligations.OnlyKeyReadsAndWritesTheKeyWait : Prop :=
  State.reset.kw = .idle ∧
  ∀ (i : Instr) (s : State) (k : KeyWait) (p a : KeyMask), i.mnemonic ≠ "KEY" →
    exec i { s with kw := k, kwPrev := p, kwArmed := a } =
      mapNext (fun t => { t with kw := k, kwPrev := p, kwArmed := a }) (exec i s)

/-- Only CALL and RTS read or write `sp` (spec/10_state.md section 3, R26). -/
def Obligations.OnlyCallAndRtsUseTheStackPointer : Prop :=
  ∀ (i : Instr) (s : State) (w : Word), i.mnemonic ∉ ["CALL", "RTS"] →
    exec i { s with sp := w } = mapNext (fun t => { t with sp := w }) (exec i s)

/-- No instruction reads `ST`, `redraw`, `halt` or the fault latch. With another `ST` every instruction does the same and
leaves `ST` alone, but for SET_SOUND, which gives the same state. With other values in `redraw`, `halt` and the four fields
of the latch it does the same too: the latch stays as it is, and `redraw` and `halt` are each set to 1 or left alone, which
of the two being fixed by the rest of the state (spec/10_state.md sections 4, 6, 7 and 8). -/
def Obligations.SoundTimerAndHostFlagsAreNotRead : Prop :=
  (∀ (i : Instr) (s : State) (b : Byte), i.mnemonic ≠ "SET_SOUND" →
    exec i { s with st := b } = mapNext (fun t => { t with st := b }) (exec i s)) ∧
  (∀ (x : Reg) (s : State) (b : Byte), exec (.setSound x) { s with st := b } = exec (.setSound x) s) ∧
  (∀ (i : Instr) (s t : State), exec i s = .next t →
    ∃ setsRedraw setsHalt : Bool, ∀ (r h f : Bool) (a : Word) (b0 b1 : Byte),
      exec i { s with redraw := r, halt := h, fault := f, faultAddr := a, faultB0 := b0, faultB1 := b1 } =
        .next { t with redraw := r || setsRedraw, halt := h || setsHalt, fault := f, faultAddr := a, faultB0 := b0,
                       faultB1 := b1 })

/-- A tick before an instruction that names no timer and the same tick after it come to one state: the countdown is
independent of the instruction stream, also during a key wait (spec/45_timers.md, R205 and R206; the spec's decision
D14, log entry 14). -/
def Obligations.TicksCommuteWithOtherInstructions : Prop :=
  ∀ (i : Instr) (s : State), i.mnemonic ∉ ["GET_DELAY", "SET_DELAY", "SET_SOUND"] →
    exec i s.tick = mapNext State.tick (exec i s)

/-! ### Control transfer -/

/-- RTS: pops 16 bits, big-endian, all of them to `pc`; `sp` goes up by 2 mod 65536 with no test; no byte of memory and
nothing else changes (spec/40_control_flow.md, R120 and R128). -/
def Obligations.RtsPopsThePc : Prop :=
  ∀ s : State, ∃ t, exec .rts s = .next t ∧ t = { s with pc := t.pc, sp := t.sp } ∧
    t.pc.toNat = 256 * (s.mem.read (s.sp.toNat % 4096)).toNat + (s.mem.read ((s.sp.toNat + 1) % 4096)).toNat ∧
    t.sp.toNat = (s.sp.toNat + 2) % 65536

/-- CALL: `sp` goes down by 2 mod 65536 with no test, the return address `a + 2` is stored there high byte first, `pc`
becomes NNN, `halt` is not touched, and every byte outside the two stored ones reads as before
(spec/40_control_flow.md, R122 and R128; the straddling slot is the spec's decision D4, log entry 15). -/
def Obligations.CallPushesTheReturnAddress : Prop :=
  ∀ (nnn : BitVec 12) (s : State), s.mem.wf = true →
    ∃ t, exec (.call nnn) s = .next t ∧ t = { s with pc := t.pc, sp := t.sp, mem := t.mem } ∧
      t.pc.toNat = nnn.toNat ∧
      t.sp.toNat = (s.sp.toNat + 65534) % 65536 ∧
      (t.readByte (s.sp - 2)).toNat = s.pc.toNat / 256 ∧
      (t.readByte (s.sp - 2 + 1)).toNat = s.pc.toNat % 256 ∧
      ∀ a : Word, memIndex a ≠ memIndex (s.sp - 2) → memIndex a ≠ memIndex (s.sp - 2 + 1) →
        t.readByte a = s.readByte a

/-- The calling convention closes: an RTS right after a CALL (at any return state with the same stack) comes back to
the word after the CALL with `sp` as it was before it, wherever `sp` stood (spec/40_control_flow.md, R120, R122). -/
def Obligations.ReturnUndoesCall : Prop :=
  ∀ (nnn : BitVec 12) (s t : State), s.mem.wf = true → exec (.call nnn) s = .next t →
    ∀ u : State, u.mem = t.mem → u.sp = t.sp → ∃ w, exec .rts u = .next w ∧ w.pc = s.pc ∧ w.sp = s.sp

/-- JUMP at `Q_SELF_JUMP_HALT = 1`, on the state whose instruction stands at `a`: `pc` becomes NNN, and `halt` is set
exactly when the 16-bit `a` equals the zero-extended NNN; nothing else changes (spec/40_control_flow.md, R121; the 16-bit
comparison is the spec's decision D2, log entry 17). The other setting is in `OtherQuirkSettingsAreRefused`. -/
def Obligations.JumpGoesToNnnAndHaltsOnItself : Prop :=
  ∀ (nnn : BitVec 12) (a : Word) (s : State), s.pc = a + 2 → s.quirks.selfJumpHalt = true →
    ∃ t, exec (.jump nnn) s = .next t ∧ t = { s with pc := t.pc, halt := t.halt } ∧
      t.pc.toNat = nnn.toNat ∧
      (t.halt = true ↔ s.halt = true ∨ nnn.toNat = a.toNat)

/-- JUMP_V0 at `Q_SELF_JUMP_HALT = 1`, on the state whose instruction stands at `a`: `pc` becomes NNN + V0, not reduced
mod 4096, and `halt` is set exactly when that sum equals `a`; nothing else changes (spec/40_control_flow.md, R127; the
unmasked `pc` and the 16-bit comparison are the spec's decision D2, log entry 17). The other setting is in
`OtherQuirkSettingsAreRefused`. -/
def Obligations.JumpV0AddsV0 : Prop :=
  ∀ (nnn : BitVec 12) (a : Word) (s : State), s.pc = a + 2 → s.quirks.selfJumpHalt = true →
    ∃ t, exec (.jumpV0 nnn) s = .next t ∧ t = { s with pc := t.pc, halt := t.halt } ∧
      t.pc.toNat = nnn.toNat + (s.readV 0).toNat ∧
      (t.halt = true ↔ s.halt = true ∨ nnn.toNat + (s.readV 0).toNat = a.toNat)

/-- The four compare-and-skip instructions add 2 to `pc` exactly when their condition holds, and change nothing else
(spec/40_control_flow.md, R123 to R126; that `pc` wraps mod 65536 is the spec's decision D2, log entry 17). -/
def Obligations.CompareSkipsMoveThePcOnly : Prop :=
  ∀ (x y : Reg) (nn : Byte) (s : State),
    (∃ t, exec (.skipEqImm x nn) s = .next t ∧ t = { s with pc := t.pc } ∧
      t.pc.toNat = if (s.readV x).toNat = nn.toNat then (s.pc.toNat + 2) % 65536 else s.pc.toNat) ∧
    (∃ t, exec (.skipNeImm x nn) s = .next t ∧ t = { s with pc := t.pc } ∧
      t.pc.toNat = if (s.readV x).toNat ≠ nn.toNat then (s.pc.toNat + 2) % 65536 else s.pc.toNat) ∧
    (∃ t, exec (.skipEqReg x y) s = .next t ∧ t = { s with pc := t.pc } ∧
      t.pc.toNat = if (s.readV x).toNat = (s.readV y).toNat then (s.pc.toNat + 2) % 65536 else s.pc.toNat) ∧
    (∃ t, exec (.skipNeReg x y) s = .next t ∧ t = { s with pc := t.pc } ∧
      t.pc.toNat = if (s.readV x).toNat ≠ (s.readV y).toNat then (s.pc.toNat + 2) % 65536 else s.pc.toNat)

/-- As a step: a skip instruction whose condition holds leaves `pc = (a + 4) mod 65536`, one whose condition does not hold
`pc = (a + 2) mod 65536`, and nothing else changes, whatever the word passed over is (spec/40_control_flow.md, R129; the
key that EX9E and EXA1 name is the spec's decision D10, log entry 10). -/
def Obligations.SkipPassesOverOneInstruction : Prop :=
  ∀ (i : Instr) (c : Bool) (s : State), s.schedule = [] → s.halt = false → s.fault = false →
    decodeWord s.fetchWord = .ok i → skipCondition i s = some c →
    ∃ t, step s = .next t ∧ t = { s with pc := t.pc } ∧
      t.pc.toNat = (s.pc.toNat + (if c then 4 else 2)) % 65536

/-! ### Register load, arithmetic, logic, shift, random -/

/-- R140 to R145: MVI, ADI, MOV, OR, AND and XOR put their result in VX and change nothing else, VF included unless it
is VX. -/
def Obligations.LoadAddLogicWriteVxOnly : Prop :=
  ∀ (x y : Reg) (nn : Byte) (s : State),
    (∃ t, exec (.mvi x nn) s = .next t ∧ WritesOnly x nn s t) ∧
    (∃ t b, exec (.adi x nn) s = .next t ∧ WritesOnly x b s t ∧ b.toNat = ((s.readV x).toNat + nn.toNat) % 256) ∧
    (∃ t, exec (.mov x y) s = .next t ∧ WritesOnly x (s.readV y) s t) ∧
    (∃ t b, exec (.or x y) s = .next t ∧ WritesOnly x b s t ∧ b.toNat = (s.readV x).toNat ||| (s.readV y).toNat) ∧
    (∃ t b, exec (.and x y) s = .next t ∧ WritesOnly x b s t ∧ b.toNat = (s.readV x).toNat &&& (s.readV y).toNat) ∧
    (∃ t b, exec (.xor x y) s = .next t ∧ WritesOnly x b s t ∧ b.toNat = (s.readV x).toNat ^^^ (s.readV y).toNat)

/-- ADD, SUB and SUBN with X other than F, as exact arithmetic: the result mod 256 in VX, the carry or no-borrow flag
in VF, nothing else changed; Y may be F or X (spec/41_alu.md, R146, R147, R149; that Y = F is the old VF is the latch
of the spec's decision D9, log entry 12). The form X = F is `FlagRegisterAsDestination`. -/
def Obligations.AddAndSubtractSetVf : Prop :=
  ∀ (x y : Reg) (s : State), x ≠ 15 →
    (∃ t b f, exec (.add x y) s = .next t ∧ WritesWithFlag x b f s t ∧
      b.toNat = ((s.readV x).toNat + (s.readV y).toNat) % 256 ∧
      f.toNat = if (s.readV x).toNat + (s.readV y).toNat > 255 then 1 else 0) ∧
    (∃ t b f, exec (.sub x y) s = .next t ∧ WritesWithFlag x b f s t ∧
      b.toNat = ((s.readV x).toNat + 256 - (s.readV y).toNat) % 256 ∧
      f.toNat = if (s.readV x).toNat ≥ (s.readV y).toNat then 1 else 0) ∧
    (∃ t b f, exec (.subn x y) s = .next t ∧ WritesWithFlag x b f s t ∧
      b.toNat = ((s.readV y).toNat + 256 - (s.readV x).toNat) % 256 ∧
      f.toNat = if (s.readV y).toNat ≥ (s.readV x).toNat then 1 else 0)

/-- SHR and SHL with X other than F, at `Q_SHIFT_VY = 0`: VX in place by one bit, the bit shifted out in VF, nothing
else changed, and V[Y] not read (spec/41_alu.md, R148 and R150). The form X = F is `FlagRegisterAsDestination`. -/
def Obligations.ShiftsSetVf : Prop :=
  ∀ (x y : Reg) (s : State), x ≠ 15 → s.quirks.shiftVy = false →
    (∃ t b f, exec (.shr x y) s = .next t ∧ WritesWithFlag x b f s t ∧
      b.toNat = (s.readV x).toNat / 2 ∧ f.toNat = (s.readV x).toNat % 2) ∧
    (∃ t b f, exec (.shl x y) s = .next t ∧ WritesWithFlag x b f s t ∧
      b.toNat = (s.readV x).toNat * 2 % 256 ∧ f.toNat = (s.readV x).toNat / 128)

/-- The five flag-writing forms with X = F: ADD leaves the carry and loses the sum, the others leave the result and
lose the flag (spec/41_alu.md, the table of R153; the spec's decision D9, log entry 12). -/
def Obligations.FlagRegisterAsDestination : Prop :=
  ∀ (y : Reg) (s : State),
    (∃ t b, exec (.add 15 y) s = .next t ∧ WritesOnly 15 b s t ∧
      b.toNat = if (s.readV 15).toNat + (s.readV y).toNat > 255 then 1 else 0) ∧
    (∃ t b, exec (.sub 15 y) s = .next t ∧ WritesOnly 15 b s t ∧
      b.toNat = ((s.readV 15).toNat + 256 - (s.readV y).toNat) % 256) ∧
    (∃ t b, exec (.subn 15 y) s = .next t ∧ WritesOnly 15 b s t ∧
      b.toNat = ((s.readV y).toNat + 256 - (s.readV 15).toNat) % 256) ∧
    (s.quirks.shiftVy = false →
      (∃ t b, exec (.shr 15 y) s = .next t ∧ WritesOnly 15 b s t ∧ b.toNat = (s.readV 15).toNat / 2) ∧
      (∃ t b, exec (.shl 15 y) s = .next t ∧ WritesOnly 15 b s t ∧ b.toNat = (s.readV 15).toNat * 2 % 256))

/-- RND: VX is the draw under the mask NN, for whatever value the random source gives, so no bit outside NN is ever set;
the next draw is a new one; nothing else changes (spec/41_alu.md, R151; the free draw is the spec's decision D15, log
entry 1). -/
def Obligations.RndIsADrawUnderTheMask : Prop :=
  ∀ (x : Reg) (nn : Byte) (s : State), ∃ t, exec (.rnd x nn) s = .next t ∧
    t = { s with v := t.v, draws := s.draws + 1 } ∧
    (∀ z, z ≠ x → t.readV z = s.readV z) ∧
    t.readV x = Config.rnd8 s.draws &&& nn ∧ t.readV x &&& ~~~nn = 0 ∧ (t.readV x).toNat ≤ nn.toNat

/-- An instruction whose effect the spec gives only at the default of a quirk flag is refused at the other setting
(spec/00_scope.md section 4, R8: "refuses any other setting"), which no run reaches (R39; the spec's decision D19, log
entry 6). -/
def Obligations.OtherQuirkSettingsAreRefused : Prop :=
  ∀ (x y : Reg) (n : Nat) (nnn : BitVec 12) (s : State),
    (s.quirks.selfJumpHalt = false →
      exec (.jump nnn) s = .refused .quirkSetting ∧ exec (.jumpV0 nnn) s = .refused .quirkSetting) ∧
    (s.quirks.shiftVy = true →
      exec (.shr x y) s = .refused .quirkSetting ∧ exec (.shl x y) s = .refused .quirkSetting) ∧
    (s.quirks.loadStoreIncI = false →
      exec (.storem x) s = .refused .quirkSetting ∧ exec (.loadm x) s = .refused .quirkSetting) ∧
    (s.quirks.spriteWrap = true → exec (.sprite x y n) s = .refused .quirkSetting) ∧
    (s.quirks.fbBytePerPixel = true →
      exec (.sprite x y n) s = .refused .quirkSetting ∧ exec .cls s = .refused .quirkSetting)

/-! ### Index register and memory transfer -/

/-- R160 and R161: MVI_I loads NNN; ADI_I adds VX and reduces the sum mod 4096; each changes `I` and nothing else, VF
not among it. -/
def Obligations.IndexLoadAndAdd : Prop :=
  ∀ (nnn : BitVec 12) (x : Reg) (s : State),
    (∃ t, exec (.mviI nnn) s = .next t ∧ t = { s with i := t.i } ∧ t.i.toNat = nnn.toNat) ∧
    (∃ t, exec (.adiI x) s = .next t ∧ t = { s with i := t.i } ∧
      t.i.toNat = (s.i.toNat + (s.readV x).toNat) % 4096)

/-- SPRITECHAR: `I` is five times the whole of VX, nothing else changes; for VX = 0..15 it is the address of a glyph,
whose five bytes in unwritten memory are the font's (spec/42_index_memory.md, R162; the spec's decision D16, log entry
11; the bytes are the spec's from general knowledge, log entry 3). -/
def Obligations.SpritecharPointsAtTheGlyph : Prop :=
  ∀ (x : Reg) (s : State), ∃ t, exec (.spritechar x) s = .next t ∧ t = { s with i := t.i } ∧
    t.i.toNat = 5 * (s.readV x).toNat ∧
    (s.mem = [] → (s.readV x).toNat < 16 → ∀ r, r < 5 →
      t.readByte (t.indexed r) = Config.font.getD (5 * (s.readV x).toNat + r) 0)

/-- R163: BCD stores hundreds, tens and units at `I`, `I + 1`, `I + 2`, each address masked on its own; every other byte
reads as before, and nothing but memory changes. -/
def Obligations.BcdStoresThreeDigits : Prop :=
  ∀ (x : Reg) (s : State), s.mem.wf = true →
    ∃ t, exec (.bcd x) s = .next t ∧ t = { s with mem := t.mem } ∧
      (t.readByte (s.indexed 0)).toNat = (s.readV x).toNat / 100 ∧
      (t.readByte (s.indexed 1)).toNat = (s.readV x).toNat / 10 % 10 ∧
      (t.readByte (s.indexed 2)).toNat = (s.readV x).toNat % 10 ∧
      ∀ a : Word, (∀ k, k < 3 → memIndex a ≠ memIndex (s.indexed k)) → t.readByte a = s.readByte a

/-- STOREM: V0..VX go to `I`, `I + 1`, ..., every other byte reads as before, `I` ends as `I + X + 1` mod 65536, and
nothing else changes (spec/42_index_memory.md, R164; the wrap of `I` is the spec's decision D2, log entry 17). -/
def Obligations.StoremStoresTheBlock : Prop :=
  ∀ (x : Reg) (s : State), s.mem.wf = true → s.quirks.loadStoreIncI = true →
    ∃ t, exec (.storem x) s = .next t ∧ t = { s with mem := t.mem, i := t.i } ∧
      t.i.toNat = (s.i.toNat + x.val + 1) % 65536 ∧
      (∀ j : Reg, j ≤ x → t.readByte (s.indexed j.val) = s.readV j) ∧
      ∀ a : Word, (∀ j : Reg, j ≤ x → memIndex a ≠ memIndex (s.indexed j.val)) → t.readByte a = s.readByte a

/-- LOADM: V0..VX come from `I`, `I + 1`, ..., the other registers keep their values, `I` ends as `I + X + 1` mod 65536,
no byte of memory and nothing else changes (spec/42_index_memory.md, R165; the wrap of `I` is the spec's decision D2,
log entry 17). -/
def Obligations.LoadmLoadsTheBlock : Prop :=
  ∀ (x : Reg) (s : State), s.quirks.loadStoreIncI = true →
    ∃ t, exec (.loadm x) s = .next t ∧ t = { s with v := t.v, i := t.i } ∧
      t.i.toNat = (s.i.toNat + x.val + 1) % 65536 ∧
      (∀ j : Reg, j ≤ x → t.readV j = s.mem.read ((s.i.toNat + j.val) % 4096)) ∧
      ∀ j : Reg, x < j → t.readV j = s.readV j

/-- After an FX55, an FX65 with the same X at the same `I`, set again in between, restores V0..VX and leaves `I` X + 1
further; without setting `I` again it reads the X + 1 bytes after the stored block (spec/42_index_memory.md, R166; the
wrap of `I` is the spec's decision D2, log entry 17). -/
def Obligations.StoremThenLoadmRestores : Prop :=
  ∀ (x : Reg) (s t u : State), s.mem.wf = true → s.quirks.loadStoreIncI = true → exec (.storem x) s = .next t →
    u.mem = t.mem → u.quirks = t.quirks →
    t.i.toNat = (s.i.toNat + x.val + 1) % 65536 ∧
    (u.i = s.i → ∃ w, exec (.loadm x) u = .next w ∧ (∀ j : Reg, j ≤ x → w.readV j = s.readV j) ∧
      w.i.toNat = (s.i.toNat + x.val + 1) % 65536) ∧
    (u.i = t.i → ∃ w, exec (.loadm x) u = .next w ∧
      ∀ j : Reg, j ≤ x → w.readV j = t.mem.read ((s.i.toNat + x.val + 1 + j.val) % 4096))

/-! ### Display -/

/-- R180: CLS zeroes all 256 framebuffer bytes, sets the redraw flag even on a blank screen, and changes nothing else. -/
def Obligations.ClsZeroesTheFramebuffer : Prop :=
  ∀ s : State, s.quirks.fbBytePerPixel = false →
    ∃ t, exec .cls s = .next t ∧ t = { s with fb := t.fb, redraw := true } ∧
      (∀ j, j < 256 → Framebuffer.byte t.fb j = 0) ∧
      ∀ px py, onGrid px py → Framebuffer.pixel t.fb px py = false

/-- SPRITE inverts exactly the pixels of the grid under the sprite's set bits, with the corner masked and rows and columns
beyond the grid clipped; VF is 1 exactly when one of them was lit before and 0 otherwise; `redraw` is set exactly when
there is such a pixel at all; nothing else changes (spec/43_display.md, R182). That N = 0 draws nothing is the spec's
decision D17 (log entry 11), that X = F or Y = F reads the old VF its decision D9 (log entry 12), and that an ill-formed N
of 16 or more runs the same loop is the model's choice (log entry 24). -/
def Obligations.SpriteInvertsTheCoveredPixels : Prop :=
  ∀ (x y : Reg) (n : Nat) (s : State), s.quirks.spriteWrap = false → s.quirks.fbBytePerPixel = false →
    ∃ t, exec (.sprite x y n) s = .next t ∧
      t = { s with v := t.v, fb := t.fb, redraw := t.redraw } ∧
      (∀ z, z ≠ 15 → t.readV z = s.readV z) ∧
      (∀ px py, onGrid px py → Framebuffer.pixel t.fb px py =
        (Framebuffer.pixel s.fb px py).xor (s.spriteCovers x y n px py)) ∧
      ((∃ px py, onGrid px py ∧ s.spriteCovers x y n px py = true ∧ Framebuffer.pixel s.fb px py = true) →
        t.readV 15 = 1) ∧
      ((¬ ∃ px py, onGrid px py ∧ s.spriteCovers x y n px py = true ∧ Framebuffer.pixel s.fb px py = true) →
        t.readV 15 = 0) ∧
      (t.redraw = true ↔
        s.redraw = true ∨ ∃ px py, onGrid px py ∧ s.spriteCovers x y n px py = true)

/-- Drawing the same sprite a second time at the same coordinates restores the framebuffer, and its VF is 1 exactly when
some covered pixel was dark before the first draw (spec/43_display.md, R183, which the spec marks derived; N = 0 and X or
Y = F as in `SpriteInvertsTheCoveredPixels`, log entries 11 and 12; that an ill-formed N of 16 or more runs the same loop
is the model's choice, log entry 24). -/
def Obligations.DrawingTwiceRestoresTheScreen : Prop :=
  ∀ (x y : Reg) (n : Nat) (s t : State), exec (.sprite x y n) s = .next t →
    (t.readV x).toNat % 64 = (s.readV x).toNat % 64 → (t.readV y).toNat % 32 = (s.readV y).toNat % 32 →
    ∃ u, exec (.sprite x y n) t = .next u ∧ u.fb = s.fb ∧
      (u.readV 15 = 1 ↔
        ∃ px py, onGrid px py ∧ s.spriteCovers x y n px py = true ∧ Framebuffer.pixel s.fb px py = false)

/-! ### Keypad -/

/-- SKIP_KEY and SKIP_NKEY test the level of the key named by the low nibble of VX, and change nothing but `pc`
(spec/44_keypad.md, R190 and R191; the nibble is the spec's decision D10, log entry 10). -/
def Obligations.KeySkipsTestTheLevel : Prop :=
  ∀ (x : Reg) (s : State),
    (∃ t, exec (.skipKey x) s = .next t ∧ t = { s with pc := t.pc } ∧
      t.pc.toNat = if s.keys.getLsbD ((s.readV x).toNat % 16) = true then (s.pc.toNat + 2) % 65536 else s.pc.toNat) ∧
    (∃ t, exec (.skipNkey x) s = .next t ∧ t = { s with pc := t.pc } ∧
      t.pc.toNat = if s.keys.getLsbD ((s.readV x).toNat % 16) = false then (s.pc.toNat + 2) % 65536 else s.pc.toNat)

/-- KEY, its three cases. Idle: it starts a wait, with the live keys as snapshot and none armed. Waiting, and an armed
key that was down is up: the least such key goes to VX and the wait ends. Waiting otherwise: the newly pressed keys are
armed and the snapshot refreshed. It holds at its own address `pc - 2` in the first and third case, goes on in the
second, and changes nothing else (spec/44_keypad.md, R192; the spec's decision D11, log entry 13). -/
def Obligations.KeyWaitsAndResolves : Prop :=
  ∀ (x : Reg) (s : State),
    (s.kw = .idle → exec (.key x) s =
      .next { s with kw := .waiting, kwPrev := s.keys, kwArmed := 0, pc := s.pc - 2 }) ∧
    (∀ k : Fin 16, s.kw = .waiting →
      (s.kwArmed.has k && s.kwPrev.has k && !s.keys.has k) = true →
      (∀ j, j < k → (s.kwArmed.has j && s.kwPrev.has j && !s.keys.has j) = false) →
      ∃ t, exec (.key x) s = .next t ∧ t = { s with v := t.v, kw := .idle } ∧
        (t.readV x).toNat = k.val ∧ ∀ z, z ≠ x → t.readV z = s.readV z) ∧
    (s.kw = .waiting → (∀ j, (s.kwArmed.has j && s.kwPrev.has j && !s.keys.has j) = false) →
      ∃ t, exec (.key x) s = .next t ∧
        t = { s with kwPrev := s.keys, kwArmed := t.kwArmed, pc := s.pc - 2 } ∧
        ∀ j, t.kwArmed.has j = (s.kwArmed.has j || (!s.kwPrev.has j && s.keys.has j)))

/-- A whole key wait, over any samples of the keys: FX0A stays at its address, its register file untouched, as long as no
key has been seen up, then down, then up again; at the first sample that completes such a press-then-release it ends,
with the least key that has completed one in VX, and `pc` moves on (spec/44_keypad.md, R192 and R193; the spec's
decision D11, log entry 13). -/
def Obligations.KeyWaitEndsAtTheFirstPressThenRelease : Prop :=
  ∀ (x : Reg) (s : State) (ls : List KeyMask) (l : KeyMask), s.kw = .idle → ls ≠ [] →
    (¬ ∃ k, PressedThenReleased ls k) →
    ((keyCycles x ls s).kw = .waiting ∧ (keyCycles x ls s).pc = s.pc ∧ (keyCycles x ls s).v = s.v) ∧
    ∀ k, PressedThenReleased (ls ++ [l]) k → (∀ j, j < k → ¬ PressedThenReleased (ls ++ [l]) j) →
      (keyCycles x (ls ++ [l]) s).kw = .idle ∧ (keyCycles x (ls ++ [l]) s).pc = s.pc + 2 ∧
      ((keyCycles x (ls ++ [l]) s).readV x).toNat = k.val ∧
      ∀ z, z ≠ x → (keyCycles x (ls ++ [l]) s).readV z = s.readV z

/-! ### Timers and host events -/

/-- R200 to R202: GET_DELAY copies `DT` to VX, SET_DELAY copies VX to `DT`, SET_SOUND copies VX to `ST`; each changes
nothing else. -/
def Obligations.TimerInstructions : Prop :=
  ∀ (x : Reg) (s : State),
    (∃ t, exec (.getDelay x) s = .next t ∧ WritesOnly x s.dt s t) ∧
    (∃ t, exec (.setDelay x) s = .next t ∧ t = { s with dt := s.readV x }) ∧
    (∃ t, exec (.setSound x) s = .next t ∧ t = { s with st := s.readV x })

/-- One tick takes 1 from each timer that is not 0, leaves a timer at 0 there, and changes nothing else
(spec/45_timers.md, R203 and R204); also while the core is halted, faulted or waiting (R205; the spec's decision D14, log
entry 14). -/
def Obligations.TickCountsBothTimersDown : Prop :=
  ∀ (s : State) (rest : List Event), s.schedule = .tick :: rest →
    ∃ t, step s = .next t ∧ t = { s with dt := t.dt, st := t.st, schedule := rest } ∧
      t.dt.toNat = s.dt.toNat - 1 ∧ t.st.toNat = s.st.toNat - 1

/-- The host's key_set, redraw_ack and quit change their one flag and nothing else, whatever the core is doing
(spec/60_exceptions.md section 5). -/
def Obligations.HostEventsChangeTheirFlagOnly : Prop :=
  ∀ (s : State) (rest : List Event),
    (∀ k v, s.schedule = .keySet k v :: rest →
      ∃ t, step s = .next t ∧ t = { s with keys := t.keys, schedule := rest } ∧
        ∀ j, t.keys.has j = if j = k then v else s.keys.has j) ∧
    (s.schedule = .redrawAck :: rest → step s = .next { s with redraw := false, schedule := rest }) ∧
    (s.schedule = .quit :: rest → step s = .next { s with halt := true, schedule := rest })

/-- A load event with a ROM of at most 3584 bytes places its byte `j` at 0x200 + j and changes no other byte and nothing
else; a longer image is refused by the loader and the core is unchanged (spec/70_reset_and_hazards.md section 2, R243;
that the event may stand anywhere in a schedule is the model's choice, log entry 23). -/
def Obligations.LoadPlacesTheRom : Prop :=
  ∀ (s : State) (rom : List Byte) (rest : List Event), s.mem.wf = true → s.schedule = .load rom :: rest →
    (rom.length ≤ 3584 →
      ∃ t, step s = .next t ∧ t = { s with mem := t.mem, schedule := rest } ∧
        (∀ j (h : j < rom.length), t.mem.read (0x200 + j) = rom[j]) ∧
        ∀ a, a < 4096 → a < 0x200 ∨ 0x200 + rom.length ≤ a → t.mem.read a = s.mem.read a) ∧
    (3584 < rom.length → step s = .next { s with schedule := rest })

/-- The state after reset (spec/10_state.md section 9): the entry point, the stack pointer, zero registers and timers,
font and zeros in memory, a dark screen, no flag set, no wait. The values are the spec's decisions D5 and D7 and the
font its own (log entries 2, 3 and 18); that a reset event gives them too is R240. -/
def Obligations.ResetValues : Prop :=
  ∀ (s : State) (rest : List Event), s.schedule = .reset :: rest →
    ∃ t, step s = .next t ∧
      t.pc = 0x0200 ∧ t.sp = 0x1000 ∧ t.i = 0 ∧ (∀ x, t.readV x = 0) ∧ t.dt = 0 ∧ t.st = 0 ∧
      (∀ a, a < 80 → t.mem.read a = Config.font.getD a 0) ∧ (∀ a, 80 ≤ a → a < 4096 → t.mem.read a = 0) ∧
      (∀ px py, onGrid px py → Framebuffer.pixel t.fb px py = false) ∧ t.redraw = false ∧
      (∀ k, t.keys.has k = false) ∧ t.halt = false ∧ t.fault = false ∧ t.kw = .idle ∧
      t.quirks = s.quirks ∧ t.schedule = rest
end

