-- ==== Sys2Proof/Laws/Decode.lean ====
section
/-! SUPPORT. The fields of an encoded word are the operands it was made of, format by format (R91, R92). -/

namespace Sys2Proof

theorem regBits_toFin (x : Reg) : ((regBits x).toFin : Fin 16) = x := by
  apply Fin.ext
  simp [regBits]

section
variable (t : BitVec 4) (x y : Reg) (n : BitVec 4) (nn : Byte) (nnn : BitVec 12)

theorem wordA_toNat : (wordA t nnn).toNat = t.toNat * 4096 + nnn.toNat := by
  have h : (wordA t nnn).toNat = t.toNat <<< 12 ||| nnn.toNat := BitVec.toNat_append t nnn
  rw [h, ← Nat.shiftLeft_add_eq_or_of_lt nnn.isLt, Nat.shiftLeft_eq]

theorem wordXI_toNat : (wordXI t x nn).toNat = t.toNat * 4096 + x.val * 256 + nn.toNat := by
  have h : (wordXI t x nn).toNat = (t ++ regBits x).toNat <<< 8 ||| nn.toNat := BitVec.toNat_append _ nn
  have h2 : (t ++ regBits x).toNat = t.toNat <<< 4 ||| (regBits x).toNat := BitVec.toNat_append t _
  rw [h, ← Nat.shiftLeft_add_eq_or_of_lt nn.isLt, h2, ← Nat.shiftLeft_add_eq_or_of_lt (regBits x).isLt]
  have hx : (regBits x).toNat = x.val := by simp [regBits]
  simp only [Nat.shiftLeft_eq, hx]
  omega

theorem wordXYN_toNat :
    (wordXYN t x y n).toNat = t.toNat * 4096 + x.val * 256 + y.val * 16 + n.toNat := by
  have h : (wordXYN t x y n).toNat = (t ++ regBits x ++ regBits y).toNat <<< 4 ||| n.toNat :=
    BitVec.toNat_append _ n
  have h2 : (t ++ regBits x ++ regBits y).toNat = (t ++ regBits x).toNat <<< 4 ||| (regBits y).toNat :=
    BitVec.toNat_append _ _
  have h3 : (t ++ regBits x).toNat = t.toNat <<< 4 ||| (regBits x).toNat := BitVec.toNat_append t _
  rw [h, ← Nat.shiftLeft_add_eq_or_of_lt n.isLt, h2, ← Nat.shiftLeft_add_eq_or_of_lt (regBits y).isLt, h3,
    ← Nat.shiftLeft_add_eq_or_of_lt (regBits x).isLt]
  have hx : (regBits x).toNat = x.val := by simp [regBits]
  have hy : (regBits y).toNat = y.val := by simp [regBits]
  simp only [Nat.shiftLeft_eq, hx, hy]
  omega

/-! The fields as numbers. -/

theorem fieldT_toNat (op : Word) : (fieldT op).toNat = op.toNat / 4096 % 16 := by
  simp [fieldT, BitVec.extractLsb'_toNat, Nat.shiftRight_eq_div_pow]

theorem fieldX_val (op : Word) : (fieldX op).val = op.toNat / 256 % 16 := by
  simp [fieldX, Nat.shiftRight_eq_div_pow]

theorem fieldY_val (op : Word) : (fieldY op).val = op.toNat / 16 % 16 := by
  simp [fieldY, Nat.shiftRight_eq_div_pow]

theorem fieldN_toNat (op : Word) : (fieldN op).toNat = op.toNat % 16 := by
  simp [fieldN, BitVec.extractLsb'_toNat]

theorem fieldNN_toNat (op : Word) : (fieldNN op).toNat = op.toNat % 256 := by
  simp [fieldNN, BitVec.extractLsb'_toNat]

theorem fieldNNN_toNat (op : Word) : (fieldNNN op).toNat = op.toNat % 4096 := by
  simp [fieldNNN, BitVec.extractLsb'_toNat]

/-! The fields of each format. -/

@[simp] theorem fieldT_wordA : fieldT (wordA t nnn) = t := by
  apply BitVec.eq_of_toNat_eq
  rw [fieldT_toNat, wordA_toNat]; omega

@[simp] theorem fieldNNN_wordA : fieldNNN (wordA t nnn) = nnn := by
  apply BitVec.eq_of_toNat_eq
  rw [fieldNNN_toNat, wordA_toNat]; omega

@[simp] theorem fieldT_wordXI : fieldT (wordXI t x nn) = t := by
  apply BitVec.eq_of_toNat_eq
  rw [fieldT_toNat, wordXI_toNat]; omega

@[simp] theorem fieldX_wordXI : fieldX (wordXI t x nn) = x := by
  apply Fin.ext
  rw [fieldX_val, wordXI_toNat]; omega

@[simp] theorem fieldNN_wordXI : fieldNN (wordXI t x nn) = nn := by
  apply BitVec.eq_of_toNat_eq
  rw [fieldNN_toNat, wordXI_toNat]; omega

@[simp] theorem fieldT_wordXYN : fieldT (wordXYN t x y n) = t := by
  apply BitVec.eq_of_toNat_eq
  rw [fieldT_toNat, wordXYN_toNat]; omega

@[simp] theorem fieldX_wordXYN : fieldX (wordXYN t x y n) = x := by
  apply Fin.ext
  rw [fieldX_val, wordXYN_toNat]; omega

@[simp] theorem fieldY_wordXYN : fieldY (wordXYN t x y n) = y := by
  apply Fin.ext
  rw [fieldY_val, wordXYN_toNat]; omega

@[simp] theorem fieldN_wordXYN : fieldN (wordXYN t x y n) = n := by
  apply BitVec.eq_of_toNat_eq
  rw [fieldN_toNat, wordXYN_toNat]; omega

end

/-- The two bytes of a word, put together again, are the word (R64). -/
theorem wordOfBytes_extract (w : Word) : wordOfBytes (w.extractLsb' 8 8) (w.extractLsb' 0 8) = w := by
  apply BitVec.eq_of_toNat_eq
  have h : (wordOfBytes (w.extractLsb' 8 8) (w.extractLsb' 0 8)).toNat = _ := BitVec.toNat_append _ _
  rw [h, ← Nat.shiftLeft_add_eq_or_of_lt (BitVec.isLt _), Nat.shiftLeft_eq]
  simp only [BitVec.extractLsb'_toNat, Nat.shiftRight_eq_div_pow]
  omega

/-- Decoding two bytes is decoding their word. -/
theorem decode_two (b0 b1 : Byte) (i : Instr) (rest : List Byte) :
    decode (b0 :: b1 :: rest) = .ok (i, rest) ↔ decodeWord (wordOfBytes b0 b1) = .ok i := by
  rw [decode]
  cases decodeWord (wordOfBytes b0 b1) <;> simp

end Sys2Proof
end

