-- ==== Sys2Proof/Laws/State.lean ====
section
/-! SUPPORT. The field lemmas of State: for every named update one lemma for each field it leaves alone, and for an
update of one field by a short expression the record it is. All are true by rfl, and no later proof unfolds one. -/

namespace Sys2Proof.Machine

/-! ### `V[x] <- b` -/

@[simp] theorem State.writeV_i (s : State) (x : Reg) (b : Byte) : (s.writeV x b).i = s.i := rfl
@[simp] theorem State.writeV_pc (s : State) (x : Reg) (b : Byte) : (s.writeV x b).pc = s.pc := rfl
@[simp] theorem State.writeV_sp (s : State) (x : Reg) (b : Byte) : (s.writeV x b).sp = s.sp := rfl
@[simp] theorem State.writeV_dt (s : State) (x : Reg) (b : Byte) : (s.writeV x b).dt = s.dt := rfl
@[simp] theorem State.writeV_st (s : State) (x : Reg) (b : Byte) : (s.writeV x b).st = s.st := rfl
@[simp] theorem State.writeV_mem (s : State) (x : Reg) (b : Byte) : (s.writeV x b).mem = s.mem := rfl
@[simp] theorem State.writeV_fb (s : State) (x : Reg) (b : Byte) : (s.writeV x b).fb = s.fb := rfl
@[simp] theorem State.writeV_redraw (s : State) (x : Reg) (b : Byte) : (s.writeV x b).redraw = s.redraw := rfl
@[simp] theorem State.writeV_keys (s : State) (x : Reg) (b : Byte) : (s.writeV x b).keys = s.keys := rfl
@[simp] theorem State.writeV_halt (s : State) (x : Reg) (b : Byte) : (s.writeV x b).halt = s.halt := rfl
@[simp] theorem State.writeV_fault (s : State) (x : Reg) (b : Byte) : (s.writeV x b).fault = s.fault := rfl
@[simp] theorem State.writeV_faultAddr (s : State) (x : Reg) (b : Byte) : (s.writeV x b).faultAddr = s.faultAddr := rfl
@[simp] theorem State.writeV_faultB0 (s : State) (x : Reg) (b : Byte) : (s.writeV x b).faultB0 = s.faultB0 := rfl
@[simp] theorem State.writeV_faultB1 (s : State) (x : Reg) (b : Byte) : (s.writeV x b).faultB1 = s.faultB1 := rfl
@[simp] theorem State.writeV_kw (s : State) (x : Reg) (b : Byte) : (s.writeV x b).kw = s.kw := rfl
@[simp] theorem State.writeV_kwPrev (s : State) (x : Reg) (b : Byte) : (s.writeV x b).kwPrev = s.kwPrev := rfl
@[simp] theorem State.writeV_kwArmed (s : State) (x : Reg) (b : Byte) : (s.writeV x b).kwArmed = s.kwArmed := rfl
@[simp] theorem State.writeV_quirks (s : State) (x : Reg) (b : Byte) : (s.writeV x b).quirks = s.quirks := rfl
@[simp] theorem State.writeV_draws (s : State) (x : Reg) (b : Byte) : (s.writeV x b).draws = s.draws := rfl
@[simp] theorem State.writeV_schedule (s : State) (x : Reg) (b : Byte) : (s.writeV x b).schedule = s.schedule := rfl

/-! ### `MemWrite(addr, 1, b)` -/

@[simp] theorem State.writeByte_v (s : State) (a : Word) (b : Byte) : (s.writeByte a b).v = s.v := rfl
@[simp] theorem State.writeByte_i (s : State) (a : Word) (b : Byte) : (s.writeByte a b).i = s.i := rfl
@[simp] theorem State.writeByte_pc (s : State) (a : Word) (b : Byte) : (s.writeByte a b).pc = s.pc := rfl
@[simp] theorem State.writeByte_sp (s : State) (a : Word) (b : Byte) : (s.writeByte a b).sp = s.sp := rfl
@[simp] theorem State.writeByte_dt (s : State) (a : Word) (b : Byte) : (s.writeByte a b).dt = s.dt := rfl
@[simp] theorem State.writeByte_st (s : State) (a : Word) (b : Byte) : (s.writeByte a b).st = s.st := rfl
@[simp] theorem State.writeByte_fb (s : State) (a : Word) (b : Byte) : (s.writeByte a b).fb = s.fb := rfl
@[simp] theorem State.writeByte_redraw (s : State) (a : Word) (b : Byte) : (s.writeByte a b).redraw = s.redraw := rfl
@[simp] theorem State.writeByte_keys (s : State) (a : Word) (b : Byte) : (s.writeByte a b).keys = s.keys := rfl
@[simp] theorem State.writeByte_halt (s : State) (a : Word) (b : Byte) : (s.writeByte a b).halt = s.halt := rfl
@[simp] theorem State.writeByte_fault (s : State) (a : Word) (b : Byte) : (s.writeByte a b).fault = s.fault := rfl
@[simp] theorem State.writeByte_faultAddr (s : State) (a : Word) (b : Byte) : (s.writeByte a b).faultAddr = s.faultAddr := rfl
@[simp] theorem State.writeByte_faultB0 (s : State) (a : Word) (b : Byte) : (s.writeByte a b).faultB0 = s.faultB0 := rfl
@[simp] theorem State.writeByte_faultB1 (s : State) (a : Word) (b : Byte) : (s.writeByte a b).faultB1 = s.faultB1 := rfl
@[simp] theorem State.writeByte_kw (s : State) (a : Word) (b : Byte) : (s.writeByte a b).kw = s.kw := rfl
@[simp] theorem State.writeByte_kwPrev (s : State) (a : Word) (b : Byte) : (s.writeByte a b).kwPrev = s.kwPrev := rfl
@[simp] theorem State.writeByte_kwArmed (s : State) (a : Word) (b : Byte) : (s.writeByte a b).kwArmed = s.kwArmed := rfl
@[simp] theorem State.writeByte_quirks (s : State) (a : Word) (b : Byte) : (s.writeByte a b).quirks = s.quirks := rfl
@[simp] theorem State.writeByte_draws (s : State) (a : Word) (b : Byte) : (s.writeByte a b).draws = s.draws := rfl
@[simp] theorem State.writeByte_schedule (s : State) (a : Word) (b : Byte) : (s.writeByte a b).schedule = s.schedule := rfl

/-! ### `MemWrite(addr, 2, w)` -/

@[simp] theorem State.writeWord_v (s : State) (a w : Word) : (s.writeWord a w).v = s.v := rfl
@[simp] theorem State.writeWord_i (s : State) (a w : Word) : (s.writeWord a w).i = s.i := rfl
@[simp] theorem State.writeWord_pc (s : State) (a w : Word) : (s.writeWord a w).pc = s.pc := rfl
@[simp] theorem State.writeWord_sp (s : State) (a w : Word) : (s.writeWord a w).sp = s.sp := rfl
@[simp] theorem State.writeWord_dt (s : State) (a w : Word) : (s.writeWord a w).dt = s.dt := rfl
@[simp] theorem State.writeWord_st (s : State) (a w : Word) : (s.writeWord a w).st = s.st := rfl
@[simp] theorem State.writeWord_fb (s : State) (a w : Word) : (s.writeWord a w).fb = s.fb := rfl
@[simp] theorem State.writeWord_redraw (s : State) (a w : Word) : (s.writeWord a w).redraw = s.redraw := rfl
@[simp] theorem State.writeWord_keys (s : State) (a w : Word) : (s.writeWord a w).keys = s.keys := rfl
@[simp] theorem State.writeWord_halt (s : State) (a w : Word) : (s.writeWord a w).halt = s.halt := rfl
@[simp] theorem State.writeWord_fault (s : State) (a w : Word) : (s.writeWord a w).fault = s.fault := rfl
@[simp] theorem State.writeWord_faultAddr (s : State) (a w : Word) : (s.writeWord a w).faultAddr = s.faultAddr := rfl
@[simp] theorem State.writeWord_faultB0 (s : State) (a w : Word) : (s.writeWord a w).faultB0 = s.faultB0 := rfl
@[simp] theorem State.writeWord_faultB1 (s : State) (a w : Word) : (s.writeWord a w).faultB1 = s.faultB1 := rfl
@[simp] theorem State.writeWord_kw (s : State) (a w : Word) : (s.writeWord a w).kw = s.kw := rfl
@[simp] theorem State.writeWord_kwPrev (s : State) (a w : Word) : (s.writeWord a w).kwPrev = s.kwPrev := rfl
@[simp] theorem State.writeWord_kwArmed (s : State) (a w : Word) : (s.writeWord a w).kwArmed = s.kwArmed := rfl
@[simp] theorem State.writeWord_quirks (s : State) (a w : Word) : (s.writeWord a w).quirks = s.quirks := rfl
@[simp] theorem State.writeWord_draws (s : State) (a w : Word) : (s.writeWord a w).draws = s.draws := rfl
@[simp] theorem State.writeWord_schedule (s : State) (a w : Word) : (s.writeWord a w).schedule = s.schedule := rfl

/-! ### Updates that are one record update -/

@[simp] theorem State.advance_eq (s : State) : s.advance = { s with pc := s.pc + 2 } := rfl

@[simp] theorem State.repeatInstr_eq (s : State) : s.repeatInstr = { s with pc := s.pc - 2 } := rfl

@[simp] theorem State.dropTop_eq (s : State) : s.dropTop = { s with sp := s.sp + 2 } := rfl

@[simp] theorem State.skipIf_eq (s : State) (taken : Bool) :
    s.skipIf taken = { s with pc := if taken then s.pc + 2 else s.pc } := by
  cases taken <;> rfl

theorem State.writeByte_eq (s : State) (a : Word) (b : Byte) :
    s.writeByte a b = { s with mem := s.mem.write (memIndex a) b } := rfl

theorem State.writeV_eq (s : State) (x : Reg) (b : Byte) : s.writeV x b = { s with v := s.v.set x.val b } := rfl

/-- A block of bytes changes memory and nothing else. -/
theorem State.writeBytes_frame (s : State) (a : Word) (bs : List Byte) :
    s.writeBytes a bs = { s with mem := (s.writeBytes a bs).mem } := by
  induction bs generalizing s a with
  | nil => rfl
  | cons b bs ih => simpa [State.writeBytes] using ih (s.writeByte a b) (a + 1)

/-! ### Reads depend on one field -/

@[simp] theorem State.readV_of_v (s : State) (v : Vector Byte 16) (x : Reg) :
    { s with v := v }.readV x = v[x.val] := rfl

theorem State.readV_congr {s t : State} (h : s.v = t.v) (x : Reg) : s.readV x = t.readV x := by
  simp [State.readV, h]

theorem State.readByte_congr {s t : State} (h : s.mem = t.mem) (a : Word) : s.readByte a = t.readByte a := by
  simp [State.readByte, h]

end Sys2Proof.Machine
end

