-- ==== Sys2Proof/Laws/Registers.lean ====
section
/-! SUPPORT. What the register operations do, stated once through `readV`. -/

namespace Sys2Proof.Machine

/-- A register read after a write of a register (R10, R21). -/
@[simp] theorem State.readV_writeV (s : State) (x z : Reg) (b : Byte) :
    (s.writeV x b).readV z = if x = z then b else s.readV z := by
  simp [State.readV, State.writeV, Vector.getElem_set, Fin.ext_iff]

theorem State.readV_writeV_self (s : State) (x : Reg) (b : Byte) : (s.writeV x b).readV x = b := by simp

theorem State.readV_writeV_ne (s : State) {x z : Reg} (b : Byte) (h : z ≠ x) :
    (s.writeV x b).readV z = s.readV z := by
  simp [Ne.symm h]

/-- Two register files that read the same are the same. -/
theorem State.v_ext {s t : State} (h : ∀ x, s.readV x = t.readV x) : s.v = t.v :=
  Vector.ext fun k hk => h ⟨k, hk⟩

/-- One write of one register is what `WritesOnly` says. -/
theorem writesOnly_writeV (s : State) (x : Reg) (b : Byte) : WritesOnly x b s (s.writeV x b) :=
  ⟨rfl, by simp, fun _ hz => s.readV_writeV_ne b hz⟩

/-- Result first, flag last: VF ends as the flag, and VX as the result unless it is VF (R23, R146). -/
theorem State.readV_writeResultThenFlag (s : State) (x z : Reg) (b f : Byte) :
    (s.writeResultThenFlag x b f).readV z = if z = Reg.vf then f else if z = x then b else s.readV z := by
  simp only [State.writeResultThenFlag, State.readV_writeV, @eq_comm _ z]

/-- Flag first, result last: VX ends as the result, and VF as the flag unless it is VX (R23, R147). -/
theorem State.readV_writeFlagThenResult (s : State) (x z : Reg) (b f : Byte) :
    (s.writeFlagThenResult x b f).readV z = if z = x then b else if z = Reg.vf then f else s.readV z := by
  simp only [State.writeFlagThenResult, State.readV_writeV, @eq_comm _ z]

theorem State.writeResultThenFlag_frame (s : State) (x : Reg) (b f : Byte) :
    s.writeResultThenFlag x b f = { s with v := (s.writeResultThenFlag x b f).v } := rfl

theorem State.writeFlagThenResult_frame (s : State) (x : Reg) (b f : Byte) :
    s.writeFlagThenResult x b f = { s with v := (s.writeFlagThenResult x b f).v } := rfl

/-- The registers of a block are V0..VX. -/
theorem mem_regsUpTo (x j : Reg) : j ∈ regsUpTo x ↔ j ≤ x := by simp [regsUpTo]

theorem regsUpTo_nodup (x : Reg) : (regsUpTo x).Nodup := (List.nodup_finRange 16).filter _

/-- A fold that writes to each register of a list a byte fixed beforehand. -/
theorem State.readV_foldl_writeV (f : Reg → Byte) (js : List Reg) (s : State) (z : Reg) :
    (js.foldl (fun t j => t.writeV j (f j)) s).readV z = if z ∈ js then f z else s.readV z := by
  induction js generalizing s with
  | nil => simp
  | cons j js ih =>
    rw [List.foldl_cons, ih, State.readV_writeV]
    by_cases hz : z ∈ js
    · rw [if_pos hz, if_pos (List.mem_cons_of_mem j hz)]
    · rw [if_neg hz]
      by_cases hj : j = z
      · rw [if_pos hj, if_pos (hj ▸ List.mem_cons_self), hj]
      · rw [if_neg hj, if_neg (by simp [hz, Ne.symm hj])]

theorem State.foldl_writeV_frame (f : Reg → Byte) (js : List Reg) (s : State) :
    js.foldl (fun t j => t.writeV j (f j)) s =
      { s with v := (js.foldl (fun t j => t.writeV j (f j)) s).v } := by
  induction js generalizing s with
  | nil => rfl
  | cons j js ih => simpa using ih (s.writeV j (f j))

end Sys2Proof.Machine
end

