-- ==== Sys2Proof/Laws/Display.lean ====
section
/-! SUPPORT. What the sprite blit does, pixel by pixel: the layout of the framebuffer, one column, one row, a whole
sprite (R32, R182). Callers cite `Blit.drawSprite_pixel`, `drawSprite_hit` and `drawSprite_changed`. -/

namespace Sys2Proof.Machine

theorem Framebuffer.byte_set (fb : Framebuffer) (j k : Nat) (b : Byte) (hj : j < 256) :
    Framebuffer.byte (fb.setIfInBounds j b) k = if k = j then b else Framebuffer.byte fb k := by
  simp only [Framebuffer.byte, Vector.getElem?_setIfInBounds]
  by_cases h : k = j
  · simp [h, hj]
  · simp [h, Ne.symm h]

/-- The mask of a pixel within its byte has exactly that pixel's bit. -/
theorem pixelMask_getLsbD (c j : Nat) (hc : c < 8) (hj : j < 8) :
    ((0x80#8) >>> c).getLsbD (7 - j) = decide (j = c) := by
  interval_cases c <;> interval_cases j <;> rfl

/-- Inverting one pixel inverts that pixel and no other (R32). -/
theorem Framebuffer.pixel_flip (fb : Framebuffer) {px py qx qy : Nat} (hp : onGrid px py) (hq : onGrid qx qy) :
    Framebuffer.pixel (Framebuffer.flip fb px py) qx qy =
      ((Framebuffer.pixel fb qx qy).xor (decide (qx = px) && decide (qy = py))) := by
  obtain ⟨hpx, hpy⟩ := hp
  obtain ⟨hqx, hqy⟩ := hq
  rw [Framebuffer.pixel, Framebuffer.flip, Framebuffer.byte_set _ _ _ _ (by omega)]
  by_cases hb : qy * 8 + qx / 8 = py * 8 + px / 8
  · rw [if_pos hb, BitVec.getLsbD_xor, pixelMask_getLsbD _ _ (Nat.mod_lt _ (by decide)) (Nat.mod_lt _ (by decide)),
      Framebuffer.pixel, hb]
    congr 1
    rw [Bool.eq_iff_iff]
    simp only [decide_eq_true_eq, Bool.and_eq_true]
    omega
  · rw [if_neg hb]
    have : ¬ (qx = px ∧ qy = py) := by rintro ⟨rfl, rfl⟩; exact hb rfl
    simp only [← Bool.decide_and, this, decide_false, Bool.xor_false, Framebuffer.pixel]

/-- Two framebuffers with the same pixels are the same. -/
theorem Framebuffer.ext_pixel {fb fb' : Framebuffer}
    (h : ∀ px py, onGrid px py → Framebuffer.pixel fb px py = Framebuffer.pixel fb' px py) : fb = fb' := by
  apply Vector.ext
  intro j hj
  apply BitVec.eq_of_getLsbD_eq
  intro k hk
  have := h (j % 8 * 8 + (7 - k)) (j / 8) ⟨by omega, by omega⟩
  simp only [Framebuffer.pixel, Framebuffer.byte, show (j % 8 * 8 + (7 - k)) / 8 = j % 8 by omega,
    show 7 - (j % 8 * 8 + (7 - k)) % 8 = k by omega, show j / 8 * 8 + j % 8 = j by omega] at this
  simpa [hj] using this

/-- The first `k` columns of a row at `x` with bits `b` cover column `qx`. -/
def coversCol (k x : Nat) (b : Byte) (qx : Nat) : Bool :=
  decide (x ≤ qx) && decide (qx < x + k) && b.getLsbD (7 - (qx - x))

theorem coversCol_succ (k x : Nat) (b : Byte) (qx : Nat) :
    coversCol (k + 1) x b qx = (coversCol k x b qx || (decide (qx = x + k) && b.getLsbD (7 - k))) := by
  rw [Bool.eq_iff_iff]
  simp only [coversCol, Bool.and_eq_true, Bool.or_eq_true, decide_eq_true_eq]
  constructor
  · rintro ⟨⟨h1, h2⟩, h3⟩
    by_cases hk : qx = x + k
    · exact .inr ⟨hk, by rwa [hk, show x + k - x = k by omega] at h3⟩
    · exact .inl ⟨⟨h1, by omega⟩, h3⟩
  · rintro (⟨⟨h1, h2⟩, h3⟩ | ⟨rfl, h3⟩)
    · exact ⟨⟨h1, by omega⟩, h3⟩
    · exact ⟨⟨by omega, by omega⟩, by rwa [show x + k - x = k by omega]⟩

theorem coversCol_at (k x : Nat) (b : Byte) : coversCol k x b (x + k) = false := by
  simp [coversCol]

/-- The first `k` columns of a row. -/
def Blit.drawCols (c : Blit) (x py : Nat) (b : Byte) (k : Nat) : Blit :=
  (List.range k).foldl (fun c col => c.drawPixel (x + col) py (b.getLsbD (7 - col))) c

theorem Blit.drawCols_succ (c : Blit) (x py : Nat) (b : Byte) (k : Nat) :
    c.drawCols x py b (k + 1) = (c.drawCols x py b k).drawPixel (x + k) py (b.getLsbD (7 - k)) := by
  simp [Blit.drawCols, List.range_succ]

/-- What one bit of a sprite does (R182). -/
theorem Blit.drawPixel_pixel (c : Blit) {px py qx qy : Nat} (bit : Bool) (hpy : py < 32) (hq : onGrid qx qy) :
    Framebuffer.pixel (c.drawPixel px py bit).fb qx qy =
      ((Framebuffer.pixel c.fb qx qy).xor (bit && decide (qx = px) && decide (qy = py))) := by
  rw [Blit.drawPixel]
  by_cases h : (bit && decide (px < Config.fbWidth)) = true
  · rw [if_pos h]
    simp only [Bool.and_eq_true, decide_eq_true_eq] at h
    rw [Framebuffer.pixel_flip c.fb ⟨h.2, hpy⟩ hq, h.1, Bool.true_and]
  · rw [if_neg h]
    have : (bit && decide (qx = px)) = false := by
      rw [Bool.eq_false_iff, ne_eq, Bool.and_eq_true, decide_eq_true_eq]
      rintro ⟨hb, rfl⟩
      exact h (by simp [hb, Config.fbWidth, hq.1])
    rw [this, Bool.false_and, Bool.xor_false]

theorem Blit.drawCols_pixel (c : Blit) {py qx qy : Nat} (x : Nat) (b : Byte) (k : Nat) (hpy : py < 32)
    (hq : onGrid qx qy) :
    Framebuffer.pixel (c.drawCols x py b k).fb qx qy =
      ((Framebuffer.pixel c.fb qx qy).xor (coversCol k x b qx && decide (qy = py))) := by
  induction k with
  | zero =>
    have : coversCol 0 x b qx = false := by
      rw [Bool.eq_false_iff, ne_eq, coversCol, Bool.and_eq_true, Bool.and_eq_true, decide_eq_true_eq,
        decide_eq_true_eq]
      omega
    simp [Blit.drawCols, this]
  | succ k ih =>
    rw [Blit.drawCols_succ, Blit.drawPixel_pixel _ _ hpy hq, ih, coversCol_succ]
    by_cases h : qx = x + k
    · subst h
      simp [coversCol_at, Bool.and_comm]
    · simp [h]

theorem Blit.drawCols_hit (c : Blit) {py : Nat} (x : Nat) (b : Byte) (k : Nat) (hpy : py < 32) :
    (c.drawCols x py b k).hit = true ↔
      c.hit = true ∨ ∃ qx, qx < 64 ∧ coversCol k x b qx = true ∧ Framebuffer.pixel c.fb qx py = true := by
  induction k with
  | zero =>
    simp only [Blit.drawCols, List.range_zero, List.foldl_nil, coversCol]
    constructor
    · exact .inl
    · rintro (h | ⟨qx, -, h, -⟩)
      · exact h
      · simp only [Bool.and_eq_true, decide_eq_true_eq] at h; omega
  | succ k ih =>
    rw [Blit.drawCols_succ, Blit.drawPixel]
    by_cases h : (b.getLsbD (7 - k) && decide (x + k < Config.fbWidth)) = true
    · rw [if_pos h]
      simp only [Bool.and_eq_true, decide_eq_true_eq] at h
      have hat := Blit.drawCols_pixel c x b k hpy (qx := x + k) (qy := py) ⟨h.2, hpy⟩
      rw [coversCol_at, Bool.false_and, Bool.xor_false] at hat
      simp only [Bool.or_eq_true, ih, hat, coversCol_succ, Bool.and_eq_true, decide_eq_true_eq]
      constructor
      · rintro ((hc | ⟨qx, h1, h2, h3⟩) | hp)
        · exact .inl hc
        · exact .inr ⟨qx, h1, .inl h2, h3⟩
        · exact .inr ⟨x + k, h.2, .inr ⟨rfl, h.1⟩, hp⟩
      · rintro (hc | ⟨qx, h1, h2 | ⟨rfl, -⟩, h3⟩)
        · exact .inl (.inl hc)
        · exact .inl (.inr ⟨qx, h1, h2, h3⟩)
        · exact .inr h3
    · rw [if_neg h, ih]
      simp only [Bool.and_eq_true, decide_eq_true_eq] at h
      simp only [coversCol_succ, Bool.or_eq_true, Bool.and_eq_true, decide_eq_true_eq]
      constructor
      · rintro (hc | ⟨qx, h1, h2, h3⟩)
        · exact .inl hc
        · exact .inr ⟨qx, h1, .inl h2, h3⟩
      · rintro (hc | ⟨qx, h1, h2 | ⟨rfl, hb⟩, h3⟩)
        · exact .inl hc
        · exact .inr ⟨qx, h1, h2, h3⟩
        · exact absurd ⟨hb, h1⟩ h

theorem Blit.drawCols_changed (c : Blit) (py x : Nat) (b : Byte) (k : Nat) :
    (c.drawCols x py b k).changed = true ↔
      c.changed = true ∨ ∃ qx, qx < 64 ∧ coversCol k x b qx = true := by
  induction k with
  | zero =>
    simp only [Blit.drawCols, List.range_zero, List.foldl_nil, coversCol]
    constructor
    · exact .inl
    · rintro (h | ⟨qx, -, h⟩)
      · exact h
      · simp only [Bool.and_eq_true, decide_eq_true_eq] at h; omega
  | succ k ih =>
    rw [Blit.drawCols_succ, Blit.drawPixel]
    by_cases h : (b.getLsbD (7 - k) && decide (x + k < Config.fbWidth)) = true
    · rw [if_pos h]
      simp only [Bool.and_eq_true, decide_eq_true_eq] at h
      exact ⟨fun _ => .inr ⟨x + k, h.2, by rw [coversCol_succ]; simp [h.1]⟩, fun _ => rfl⟩
    · rw [if_neg h, ih]
      simp only [Bool.and_eq_true, decide_eq_true_eq] at h
      simp only [coversCol_succ, Bool.or_eq_true, Bool.and_eq_true, decide_eq_true_eq]
      constructor
      · rintro (hc | ⟨qx, h1, h2⟩)
        · exact .inl hc
        · exact .inr ⟨qx, h1, .inl h2⟩
      · rintro (hc | ⟨qx, h1, h2 | ⟨rfl, hb⟩⟩)
        · exact .inl hc
        · exact .inr ⟨qx, h1, h2⟩
        · exact absurd ⟨hb, h1⟩ h

/-- The first `n` rows of a sprite at `(x, y)` cover `(qx, qy)`. -/
def coversRows (n x y : Nat) (rowByte : Nat → Byte) (qx qy : Nat) : Bool :=
  decide (y ≤ qy) && decide (qy < y + n) && coversCol 8 x (rowByte (qy - y)) qx

theorem coversRows_succ (n x y : Nat) (rowByte : Nat → Byte) (qx qy : Nat) :
    coversRows (n + 1) x y rowByte qx qy =
      (coversRows n x y rowByte qx qy || (decide (qy = y + n) && coversCol 8 x (rowByte n) qx)) := by
  rw [Bool.eq_iff_iff]
  simp only [coversRows, Bool.and_eq_true, Bool.or_eq_true, decide_eq_true_eq]
  constructor
  · rintro ⟨⟨h1, h2⟩, h3⟩
    by_cases hk : qy = y + n
    · exact .inr ⟨hk, by rwa [hk, show y + n - y = n by omega] at h3⟩
    · exact .inl ⟨⟨h1, by omega⟩, h3⟩
  · rintro (⟨⟨h1, h2⟩, h3⟩ | ⟨rfl, h3⟩)
    · exact ⟨⟨h1, by omega⟩, h3⟩
    · exact ⟨⟨by omega, by omega⟩, by rwa [show y + n - y = n by omega]⟩

theorem coversRows_at (n x y : Nat) (rowByte : Nat → Byte) (qx : Nat) :
    coversRows n x y rowByte qx (y + n) = false := by
  simp [coversRows]

theorem Blit.drawSprite_succ (c : Blit) (x y n : Nat) (rowByte : Nat → Byte) :
    c.drawSprite x y (n + 1) rowByte =
      if y + n < Config.fbHeight then (c.drawSprite x y n rowByte).drawCols x (y + n) (rowByte n) 8
      else c.drawSprite x y n rowByte := by
  simp [Blit.drawSprite, List.range_succ, Blit.drawRow, Blit.drawCols]

/-- A sprite inverts exactly the pixels of the grid that its set bits cover (R182). -/
theorem Blit.drawSprite_pixel (c : Blit) (x y n : Nat) (rowByte : Nat → Byte) {qx qy : Nat} (hq : onGrid qx qy) :
    Framebuffer.pixel (c.drawSprite x y n rowByte).fb qx qy =
      ((Framebuffer.pixel c.fb qx qy).xor (coversRows n x y rowByte qx qy)) := by
  induction n with
  | zero =>
    have : coversRows 0 x y rowByte qx qy = false := by
      rw [Bool.eq_false_iff, ne_eq, coversRows, Bool.and_eq_true, Bool.and_eq_true, decide_eq_true_eq,
        decide_eq_true_eq]
      omega
    simp [Blit.drawSprite, this]
  | succ n ih =>
    rw [Blit.drawSprite_succ, coversRows_succ]
    by_cases h : y + n < Config.fbHeight
    · rw [if_pos h, Blit.drawCols_pixel _ _ _ _ h hq, ih]
      by_cases hy : qy = y + n
      · subst hy
        simp [coversRows_at]
      · simp [hy]
    · rw [if_neg h, ih]
      have : ¬ qy = y + n := by
        have := hq.2
        simp only [Config.fbHeight] at h
        omega
      simp [this]

/-- The collision flag: some covered pixel of the grid was lit before (R182). -/
theorem Blit.drawSprite_hit (c : Blit) (x y n : Nat) (rowByte : Nat → Byte) :
    (c.drawSprite x y n rowByte).hit = true ↔
      c.hit = true ∨ ∃ qx qy, onGrid qx qy ∧ coversRows n x y rowByte qx qy = true ∧
        Framebuffer.pixel c.fb qx qy = true := by
  induction n with
  | zero =>
    simp only [Blit.drawSprite, List.range_zero, List.foldl_nil, coversRows]
    constructor
    · exact .inl
    · rintro (h | ⟨qx, qy, -, h, -⟩)
      · exact h
      · simp only [Bool.and_eq_true, decide_eq_true_eq] at h; omega
  | succ n ih =>
    rw [Blit.drawSprite_succ]
    simp only [coversRows_succ, Bool.or_eq_true, Bool.and_eq_true, decide_eq_true_eq]
    by_cases h : y + n < Config.fbHeight
    · rw [if_pos h, Blit.drawCols_hit _ _ _ _ h, ih]
      have hat : ∀ qx, qx < 64 → Framebuffer.pixel (c.drawSprite x y n rowByte).fb qx (y + n) =
          Framebuffer.pixel c.fb qx (y + n) := fun qx hqx => by
        rw [Blit.drawSprite_pixel c x y n rowByte ⟨hqx, h⟩, coversRows_at, Bool.xor_false]
      constructor
      · rintro ((hc | ⟨qx, qy, h1, h2, h3⟩) | ⟨qx, h1, h2, h3⟩)
        · exact .inl hc
        · exact .inr ⟨qx, qy, h1, .inl h2, h3⟩
        · exact .inr ⟨qx, y + n, ⟨h1, h⟩, .inr ⟨rfl, h2⟩, hat qx h1 ▸ h3⟩
      · rintro (hc | ⟨qx, qy, h1, h2 | ⟨rfl, h2⟩, h3⟩)
        · exact .inl (.inl hc)
        · exact .inl (.inr ⟨qx, qy, h1, h2, h3⟩)
        · exact .inr ⟨qx, h1.1, h2, (hat qx h1.1).trans h3⟩
    · rw [if_neg h, ih]
      constructor
      · rintro (hc | ⟨qx, qy, h1, h2, h3⟩)
        · exact .inl hc
        · exact .inr ⟨qx, qy, h1, .inl h2, h3⟩
      · rintro (hc | ⟨qx, qy, h1, h2 | ⟨rfl, -⟩, h3⟩)
        · exact .inl hc
        · exact .inr ⟨qx, qy, h1, h2, h3⟩
        · exact absurd h1.2 h

/-- `changed`: some pixel of the grid was covered (R182). -/
theorem Blit.drawSprite_changed (c : Blit) (x y n : Nat) (rowByte : Nat → Byte) :
    (c.drawSprite x y n rowByte).changed = true ↔
      c.changed = true ∨ ∃ qx qy, onGrid qx qy ∧ coversRows n x y rowByte qx qy = true := by
  induction n with
  | zero =>
    simp only [Blit.drawSprite, List.range_zero, List.foldl_nil, coversRows]
    constructor
    · exact .inl
    · rintro (h | ⟨qx, qy, -, h⟩)
      · exact h
      · simp only [Bool.and_eq_true, decide_eq_true_eq] at h; omega
  | succ n ih =>
    rw [Blit.drawSprite_succ]
    simp only [coversRows_succ, Bool.or_eq_true, Bool.and_eq_true, decide_eq_true_eq]
    by_cases h : y + n < Config.fbHeight
    · rw [if_pos h, Blit.drawCols_changed, ih]
      constructor
      · rintro ((hc | ⟨qx, qy, h1, h2⟩) | ⟨qx, h1, h2⟩)
        · exact .inl hc
        · exact .inr ⟨qx, qy, h1, .inl h2⟩
        · exact .inr ⟨qx, y + n, ⟨h1, h⟩, .inr ⟨rfl, h2⟩⟩
      · rintro (hc | ⟨qx, qy, h1, h2 | ⟨rfl, h2⟩⟩)
        · exact .inl (.inl hc)
        · exact .inl (.inr ⟨qx, qy, h1, h2⟩)
        · exact .inr ⟨qx, h1.1, h2⟩
    · rw [if_neg h, ih]
      constructor
      · rintro (hc | ⟨qx, qy, h1, h2⟩)
        · exact .inl hc
        · exact .inr ⟨qx, qy, h1, .inl h2⟩
      · rintro (hc | ⟨qx, qy, h1, h2 | ⟨rfl, -⟩⟩)
        · exact .inl hc
        · exact .inr ⟨qx, qy, h1, h2⟩
        · exact absurd h1.2 h

theorem startColumn_eq (b : Byte) : startColumn b = b.toNat % 64 := by
  rw [startColumn, BitVec.toNat_and, show (63 : Byte).toNat = 2 ^ 6 - 1 from rfl, Nat.and_two_pow_sub_one_eq_mod]

theorem startRow_eq (b : Byte) : startRow b = b.toNat % 32 := by
  rw [startRow, BitVec.toNat_and, show (31 : Byte).toNat = 2 ^ 5 - 1 from rfl, Nat.and_two_pow_sub_one_eq_mod]

/-- The blit of DXYN covers the pixels that R181 and R182 say. -/
theorem State.coversRows_eq (s : State) (x y : Reg) (n px py : Nat) :
    coversRows n (startColumn (s.readV x)) (startRow (s.readV y)) (fun row => s.readByte (s.indexed row)) px py =
      s.spriteCovers x y n px py := by
  rw [Bool.eq_iff_iff]
  simp only [coversRows, coversCol, State.spriteCovers, startColumn_eq, startRow_eq, Bool.and_eq_true,
    decide_eq_true_eq]
  tauto

/-- Whether a blit changes a pixel does not depend on the framebuffer (R182: every such bit inverts its pixel). -/
theorem State.blit_changed_of_fb (s : State) (fb' : Framebuffer) (x y : Reg) (n : Nat) :
    (State.blit { s with fb := fb' } x y n).changed = (s.blit x y n).changed := by
  have h : ∀ t : State, (t.blit x y n).changed = true ↔ _ := fun t => Blit.drawSprite_changed _ _ _ _ _
  rw [Bool.eq_iff_iff, h s]
  exact h { s with fb := fb' }

end Sys2Proof.Machine
end

