-- ==== Sys2Proof/Laws/Keypad.lean ====
section
/-! SUPPORT. Laws of key masks and of the key wait: the least key of a mask, the flags of a mask's combinations, and
the three things an execution of FX0A can do (R192). -/

namespace Sys2Proof.Machine

theorem finRange_pairwise_lt (n : Nat) : (List.finRange n).Pairwise (· < ·) := by
  rw [List.pairwise_iff_getElem]
  intro a b ha hb hab
  simpa [Fin.lt_def] using hab

/-- The least key of a mask is in it, and every key in it is at least as large (R192). -/
theorem leastKey_eq_some {m : KeyMask} {k : Fin 16} :
    leastKey m = some k ↔ m.has k = true ∧ ∀ j, j < k → m.has j = false := by
  rw [leastKey, List.find?_eq_some_iff_append]
  constructor
  · rintro ⟨hk, as, bs, hl, hno⟩
    refine ⟨hk, fun j hj => ?_⟩
    have hmem : j ∈ as ++ k :: bs := hl ▸ List.mem_finRange j
    rcases List.mem_append.1 hmem with h | h
    · simpa using hno j h
    · have hp := finRange_pairwise_lt 16
      rw [hl, List.pairwise_append] at hp
      rcases List.mem_cons.1 h with rfl | h
      · exact absurd hj (lt_irrefl _)
      · exact absurd (List.rel_of_pairwise_cons hp.2.1 h) (not_lt_of_gt hj)
  · rintro ⟨hk, hno⟩
    obtain ⟨as, bs, hl⟩ := List.append_of_mem (List.mem_finRange k)
    refine ⟨hk, as, bs, hl, fun j hj => ?_⟩
    have hp := finRange_pairwise_lt 16
    rw [hl, List.pairwise_append] at hp
    simp [hno j (hp.2.2 j hj k List.mem_cons_self)]

theorem leastKey_eq_none {m : KeyMask} : leastKey m = none ↔ ∀ k, m.has k = false := by
  simp [leastKey]

/-- The flags of the newly pressed keys (R192). -/
theorem State.pressed_has (s : State) (k : Fin 16) :
    s.pressed.has k = (!s.kwPrev.has k && s.keys.has k) := by
  simp [State.pressed, KeyMask.has]

/-- The flags of the armed keys seen released (R192). -/
theorem State.released_has (s : State) (k : Fin 16) :
    s.released.has k = (s.kwArmed.has k && s.kwPrev.has k && !s.keys.has k) := by
  simp [State.released, KeyMask.has]

/-- A mask is empty when no key is in it. -/
theorem KeyMask.eq_zero_iff (m : KeyMask) : m = 0 ↔ ∀ k : Fin 16, m.has k = false := by
  constructor
  · rintro rfl k
    simp [KeyMask.has]
  · intro h
    apply BitVec.eq_of_getLsbD_eq
    intro k hk
    simpa [KeyMask.has] using h ⟨k, hk⟩

/-- FX0A enters a wait, resolves one, or keeps waiting (R192). -/
theorem execKey_cases (x : Reg) (s : State) :
    (s.kw = .idle ∧ execKey x s = .next s.enterKeyWait) ∨
    (s.kw = .waiting ∧ ∃ k, leastKey s.released = some k ∧ execKey x s = .next (s.resolveKeyWait x k)) ∨
    (s.kw = .waiting ∧ leastKey s.released = none ∧ execKey x s = .next s.keepKeyWait) := by
  rw [execKey]
  cases hk : s.kw with
  | idle => exact .inl ⟨rfl, rfl⟩
  | waiting =>
    cases hl : leastKey s.released with
    | none => exact .inr (.inr ⟨rfl, rfl, rfl⟩)
    | some k => exact .inr (.inl ⟨rfl, k, rfl, rfl⟩)

/-- `vx & 0x0F` as a number (R190). -/
theorem keyIndex_val (b : Byte) : (keyIndex b).val = b.toNat % 16 := by
  simp [keyIndex]

end Sys2Proof.Machine
end

