-- ==== Sys2Proof/Laws/Memory.lean ====
section
/-! SUPPORT. The laws of the store: what a read gives after a write, that every write keeps the canonical form, that
canonical memories which read the same are equal, and the bytes of wider accesses. -/

namespace Sys2Proof.Machine

theorem Memory.read_cons (a k : Nat) (b : Byte) (m : Memory) (h : Memory.read m a = Memory.unlisted a) :
    Memory.read (Memory.cons a b m) k = if k = a then b else Memory.read m k := by
  unfold Memory.cons
  split
  · split <;> simp_all
  · simp only [Memory.read, @eq_comm _ k]

theorem Memory.wfFrom_mono {lo lo' : Nat} {m : Memory} (hle : lo ≤ lo') (h : Memory.wfFrom lo' m = true) :
    Memory.wfFrom lo m = true := by
  cases m with
  | nil => rfl
  | cons c m =>
    simp only [Memory.wfFrom, Bool.and_eq_true, decide_eq_true_eq] at h ⊢
    exact ⟨⟨⟨by omega, h.1.1.2⟩, h.1.2⟩, h.2⟩

/-- Below its first address a canonical memory lists nothing. -/
theorem Memory.read_of_lt {lo a : Nat} {m : Memory} (h : Memory.wfFrom lo m = true) (ha : a < lo) :
    Memory.read m a = Memory.unlisted a := by
  induction m generalizing lo with
  | nil => rfl
  | cons c m ih =>
    simp only [Memory.wfFrom, Bool.and_eq_true, decide_eq_true_eq] at h
    rw [Memory.read, if_neg (by omega)]
    exact ih h.2 (by omega)

/-- A read after a write, in a canonical memory. -/
theorem Memory.read_write {lo : Nat} {m : Memory} (h : Memory.wfFrom lo m = true) (a k : Nat) (b : Byte) :
    Memory.read (Memory.write m a b) k = if k = a then b else Memory.read m k := by
  induction m generalizing lo with
  | nil => exact Memory.read_cons a k b [] rfl
  | cons c m ih =>
    obtain ⟨k', v⟩ := c
    have hm : Memory.wfFrom (k' + 1) m = true := by simp_all [Memory.wfFrom]
    rw [Memory.write]
    by_cases h1 : a < k'
    · rw [if_pos h1]
      refine Memory.read_cons a k b _ ?_
      rw [Memory.read, if_neg (by omega)]
      exact Memory.read_of_lt hm (by omega)
    · rw [if_neg h1]
      by_cases h2 : a = k'
      · rw [if_pos h2, Memory.read_cons a k b _ (Memory.read_of_lt hm (by omega))]
        by_cases hk : k = a
        · rw [if_pos hk, if_pos hk]
        · rw [if_neg hk, if_neg hk, Memory.read, if_neg (by omega)]
      · rw [if_neg h2, Memory.read, Memory.read, ih hm]
        by_cases hk : k' = k
        · rw [if_pos hk, if_neg (by omega), if_pos hk]
        · rw [if_neg hk, if_neg hk]

theorem Memory.wfFrom_cons {lo a : Nat} {m : Memory} (b : Byte) (hlo : lo ≤ a) (ha : a < Config.memSize)
    (h : Memory.wfFrom (a + 1) m = true) : Memory.wfFrom lo (Memory.cons a b m) = true := by
  unfold Memory.cons
  split
  · exact Memory.wfFrom_mono (by omega) h
  · simp_all [Memory.wfFrom]

/-- A write inside the store keeps the canonical form. -/
theorem Memory.wfFrom_write {lo a : Nat} {m : Memory} (b : Byte) (h : Memory.wfFrom lo m = true) (hlo : lo ≤ a)
    (ha : a < Config.memSize) : Memory.wfFrom lo (Memory.write m a b) = true := by
  induction m generalizing lo with
  | nil => exact Memory.wfFrom_cons b hlo ha rfl
  | cons c m ih =>
    obtain ⟨k, v⟩ := c
    simp only [Memory.wfFrom, Bool.and_eq_true, decide_eq_true_eq] at h
    rw [Memory.write]
    split_ifs with h1 h2
    · refine Memory.wfFrom_cons b hlo ha ?_
      simp only [Memory.wfFrom, Bool.and_eq_true, decide_eq_true_eq]
      exact ⟨⟨⟨by omega, h.1.1.2⟩, h.1.2⟩, h.2⟩
    · exact Memory.wfFrom_cons b hlo ha (h2 ▸ h.2)
    · simp only [Memory.wfFrom, Bool.and_eq_true, decide_eq_true_eq]
      exact ⟨h.1, ih h.2 (by omega)⟩

/-- Canonical memories that read the same are the same list. -/
theorem Memory.wfFrom_ext {lo : Nat} {m m' : Memory} (h : Memory.wfFrom lo m = true)
    (h' : Memory.wfFrom lo m' = true) (hr : ∀ a, lo ≤ a → Memory.read m a = Memory.read m' a) : m = m' := by
  induction m generalizing lo m' with
  | nil =>
    cases m' with
    | nil => rfl
    | cons c m' =>
      simp only [Memory.wfFrom, Bool.and_eq_true, decide_eq_true_eq] at h'
      have := hr c.1 h'.1.1.1
      rw [Memory.read, Memory.read, if_pos rfl] at this
      exact absurd this.symm h'.1.2
  | cons c m ih =>
    obtain ⟨a, b⟩ := c
    simp only [Memory.wfFrom, Bool.and_eq_true, decide_eq_true_eq] at h
    cases m' with
    | nil =>
      have := hr a h.1.1.1
      rw [Memory.read, Memory.read, if_pos rfl] at this
      exact absurd this h.1.2
    | cons c' m' =>
      obtain ⟨a', b'⟩ := c'
      simp only [Memory.wfFrom, Bool.and_eq_true, decide_eq_true_eq] at h'
      have haa : a = a' := by
        rcases Nat.lt_trichotomy a a' with hlt | heq | hgt
        · have := hr a h.1.1.1
          rw [Memory.read, if_pos rfl, Memory.read, if_neg (by omega),
            Memory.read_of_lt h'.2 (by omega)] at this
          exact absurd this h.1.2
        · exact heq
        · have := hr a' h'.1.1.1
          rw [Memory.read, if_neg (by omega), Memory.read_of_lt h.2 (by omega), Memory.read, if_pos rfl] at this
          exact absurd this.symm h'.1.2
      subst haa
      have hb : b = b' := by
        have := hr a h.1.1.1
        rwa [Memory.read, if_pos rfl, Memory.read, if_pos rfl] at this
      subst hb
      congr 1
      refine ih h.2 h'.2 fun k hk => ?_
      have := hr k (by omega)
      rwa [Memory.read, if_neg (by omega), Memory.read, if_neg (by omega)] at this

/-! ### Addresses -/

theorem memIndex_lt (a : Word) : memIndex a < Config.memSize := Nat.mod_lt _ (by decide)

/-- Addresses that agree mod 4096 name one byte (R60). -/
theorem memIndex_eq_iff (a c : Word) : memIndex a = memIndex c ↔ a.toNat % 4096 = c.toNat % 4096 := Iff.rfl

theorem memIndex_add (a : Word) (k : Nat) : memIndex (a + BitVec.ofNat 16 k) = (a.toNat + k) % 4096 := by
  simp only [memIndex, BitVec.toNat_add, BitVec.toNat_ofNat, Config.memSize]
  omega

theorem memIndex_succ (a : Word) : memIndex (a + 1) = (a.toNat + 1) % 4096 := memIndex_add a 1

/-- Two addresses less than a whole store apart name different bytes. -/
theorem memIndex_add_inj {a : Word} {j k : Nat} (hj : j < 4096) (hk : k < 4096)
    (h : memIndex (a + BitVec.ofNat 16 j) = memIndex (a + BitVec.ofNat 16 k)) : j = k := by
  rw [memIndex_add, memIndex_add] at h
  omega

/-! ### Bytes -/

/-- A byte read after a byte write (R61, R62). -/
theorem State.readByte_writeByte {s : State} (h : s.mem.wf = true) (a c : Word) (b : Byte) :
    (s.writeByte a b).readByte c = if memIndex c = memIndex a then b else s.readByte c :=
  Memory.read_write h _ _ _

theorem State.writeByte_wf {s : State} (h : s.mem.wf = true) (a : Word) (b : Byte) :
    (s.writeByte a b).mem.wf = true :=
  Memory.wfFrom_write b h (Nat.zero_le _) (memIndex_lt a)

/-! ### Words -/

theorem State.writeWord_wf {s : State} (h : s.mem.wf = true) (a w : Word) : (s.writeWord a w).mem.wf = true :=
  State.writeByte_wf (State.writeByte_wf h _ _) _ _

/-- The bytes of a written word: high at the lower address, each masked on its own, and no other byte (R63, R64). -/
theorem State.readByte_writeWord {s : State} (h : s.mem.wf = true) (a w c : Word) :
    (s.writeWord a w).readByte c =
      if memIndex c = memIndex (a + 1) then w.extractLsb' 0 8
      else if memIndex c = memIndex a then w.extractLsb' 8 8 else s.readByte c := by
  rw [State.writeWord, State.readByte_writeByte (State.writeByte_wf h _ _), State.readByte_writeByte h]

theorem word_eq_append (w : Word) : w.extractLsb' 8 8 ++ w.extractLsb' 0 8 = w := by
  apply BitVec.eq_of_getLsbD_eq
  intro k hk
  simp only [BitVec.getLsbD_append, BitVec.getLsbD_extractLsb']
  by_cases h : k < 8
  · simp [h]
  · have : k - 8 < 8 := by omega
    simp [h, this, show 8 + (k - 8) = k by omega]

theorem append_high (a b : Byte) : (a ++ b : Word).extractLsb' 8 8 = a := by
  apply BitVec.eq_of_getLsbD_eq
  intro k hk
  have e : (a ++ b : Word).getLsbD (8 + k) = _ := BitVec.getLsbD_append
  simp [hk, e]

theorem append_low (a b : Byte) : (a ++ b : Word).extractLsb' 0 8 = b := by
  apply BitVec.eq_of_getLsbD_eq
  intro k hk
  have e : (a ++ b : Word).getLsbD k = _ := BitVec.getLsbD_append
  simp [hk, e]

/-- A word reads back as it was written, straddling 0xFFF / 0x000 or not (R63). -/
theorem State.readWord_writeWord {s : State} (h : s.mem.wf = true) (a w : Word) :
    (s.writeWord a w).readWord a = w := by
  have hne : memIndex a ≠ memIndex (a + 1) := by
    rw [memIndex_succ]
    simp only [memIndex, Config.memSize]
    omega
  rw [State.readWord, State.readByte_writeWord h, State.readByte_writeWord h, if_neg hne, if_pos rfl, if_pos rfl,
    word_eq_append]

/-! ### Blocks -/

/-- What a block write leaves in memory depends on memory alone. -/
theorem State.writeBytes_mem_congr {s t : State} (hm : s.mem = t.mem) (a : Word) (bs : List Byte) :
    (s.writeBytes a bs).mem = (t.writeBytes a bs).mem := by
  induction bs generalizing s t a with
  | nil => exact hm
  | cons b bs ih => exact ih (congrArg (fun m => Memory.write m (memIndex a) b) hm) (a + 1)

theorem State.writeBytes_wf {s : State} (h : s.mem.wf = true) (a : Word) (bs : List Byte) :
    (s.writeBytes a bs).mem.wf = true := by
  induction bs generalizing s a with
  | nil => exact h
  | cons b bs ih => exact ih (State.writeByte_wf h a b) (a + 1)

/-- Outside a written block every byte reads as before. -/
theorem State.readByte_writeBytes_of_not {s : State} (h : s.mem.wf = true) (a c : Word) (bs : List Byte)
    (hc : ∀ j, j < bs.length → memIndex c ≠ memIndex (a + BitVec.ofNat 16 j)) :
    (s.writeBytes a bs).readByte c = s.readByte c := by
  induction bs generalizing s a with
  | nil => rfl
  | cons b bs ih =>
    rw [State.writeBytes, ih (State.writeByte_wf h a b), State.readByte_writeByte h, if_neg]
    · simpa using hc 0 (by simp)
    · intro j hj
      have := hc (j + 1) (by simpa using hj)
      rwa [show a + 1 + BitVec.ofNat 16 j = a + BitVec.ofNat 16 (j + 1) by
        rw [BitVec.add_assoc]; congr 1; apply BitVec.eq_of_toNat_eq; simp [Nat.add_comm]]

/-- A byte of a written block that is shorter than the store. -/
theorem State.readByte_writeBytes {s : State} (h : s.mem.wf = true) (a : Word) (bs : List Byte)
    (hl : bs.length ≤ 4096) (j : Nat) (hj : j < bs.length) :
    (s.writeBytes a bs).readByte (a + BitVec.ofNat 16 j) = bs[j] := by
  induction bs generalizing s a j with
  | nil => simp at hj
  | cons b bs ih =>
    have hl' : bs.length + 1 ≤ 4096 := by simpa using hl
    have hshift : ∀ k, a + 1 + BitVec.ofNat 16 k = a + BitVec.ofNat 16 (k + 1) := fun k => by
      rw [BitVec.add_assoc]; congr 1; apply BitVec.eq_of_toNat_eq; simp [Nat.add_comm]
    cases j with
    | zero =>
      rw [State.writeBytes, State.readByte_writeBytes_of_not (State.writeByte_wf h a b),
        State.readByte_writeByte h]
      · simp
      · intro k hk hcon
        rw [hshift] at hcon
        have := memIndex_add_inj (by omega) (by omega) hcon
        omega
    | succ j =>
      rw [State.writeBytes, ← hshift]
      simpa using ih (State.writeByte_wf h a b) (a + 1) (by omega) j (by simpa using hj)

end Sys2Proof.Machine
end

