-- ==== Sys2Proof/Laws/Exec.lean ====
section
/-! SUPPORT. One lemma for each shared operation of the meanings, saying once what it can do. -/

namespace Sys2Proof.Machine

/-- An effect that a quirk flag guards happens exactly when the flag is at its default (R8). -/
theorem atDefault_next {ok : Bool} {s' t : State} : atDefault ok s' = .next t ↔ ok = true ∧ t = s' := by
  cases ok <;> simp [atDefault, eq_comm]

theorem atDefault_true (s' : State) : atDefault true s' = .next s' := rfl

theorem atDefault_false (s' : State) : atDefault false s' = .refused .quirkSetting := rfl

/-! ### FX55 and FX65 -/

theorem State.foldl_writeByte_frame (f : Reg → Word) (g : Reg → Byte) (js : List Reg) (s : State) :
    js.foldl (fun t j => t.writeByte (f j) (g j)) s =
      { s with mem := (js.foldl (fun t j => t.writeByte (f j) (g j)) s).mem } := by
  induction js generalizing s with
  | nil => rfl
  | cons j js ih => simpa using ih (s.writeByte (f j) (g j))

theorem State.foldl_writeByte_wf (f : Reg → Word) (g : Reg → Byte) (js : List Reg) {s : State}
    (h : s.mem.wf = true) : (js.foldl (fun t j => t.writeByte (f j) (g j)) s).mem.wf = true := by
  induction js generalizing s with
  | nil => exact h
  | cons j js ih => exact ih (State.writeByte_wf h _ _)

theorem State.readByte_foldl_writeByte_of_not (f : Reg → Word) (g : Reg → Byte) (js : List Reg) {s : State}
    (h : s.mem.wf = true) (a : Word) (ha : ∀ j ∈ js, memIndex a ≠ memIndex (f j)) :
    (js.foldl (fun t j => t.writeByte (f j) (g j)) s).readByte a = s.readByte a := by
  induction js generalizing s with
  | nil => rfl
  | cons j js ih =>
    rw [List.foldl_cons, ih (State.writeByte_wf h _ _) fun k hk => ha k (List.mem_cons_of_mem _ hk),
      State.readByte_writeByte h, if_neg (ha j List.mem_cons_self)]

theorem State.readByte_foldl_writeByte (f : Reg → Word) (g : Reg → Byte) (js : List Reg) {s : State}
    (h : s.mem.wf = true) (hnd : js.Nodup) (hinj : ∀ j ∈ js, ∀ k ∈ js, memIndex (f j) = memIndex (f k) → j = k)
    (j : Reg) (hj : j ∈ js) :
    (js.foldl (fun t j => t.writeByte (f j) (g j)) s).readByte (f j) = g j := by
  induction js generalizing s with
  | nil => cases hj
  | cons i js ih =>
    rw [List.nodup_cons] at hnd
    rw [List.foldl_cons]
    rcases List.mem_cons.1 hj with rfl | hj'
    · rw [State.readByte_foldl_writeByte_of_not f g js (State.writeByte_wf h _ _), State.readByte_writeByte h,
        if_pos rfl]
      intro k hk hcon
      have := hinj j List.mem_cons_self k (List.mem_cons_of_mem _ hk) hcon
      exact hnd.1 (this ▸ hk)
    · exact ih (State.writeByte_wf h _ _) hnd.2
        (fun a ha b hb => hinj a (List.mem_cons_of_mem _ ha) b (List.mem_cons_of_mem _ hb)) hj'

/-- Different offsets of a block name different bytes (R68). -/
theorem State.indexed_inj (s : State) {j k : Reg} (h : memIndex (s.indexed j.val) = memIndex (s.indexed k.val)) :
    j = k :=
  Fin.ext (memIndex_add_inj (by omega) (by omega) h)

theorem State.storeBlock_frame (s : State) (x : Reg) :
    s.storeBlock x = { s with mem := (s.storeBlock x).mem } :=
  s.foldl_writeByte_frame _ _ _

theorem State.storeBlock_wf {s : State} (h : s.mem.wf = true) (x : Reg) : (s.storeBlock x).mem.wf = true :=
  State.foldl_writeByte_wf _ _ _ h

/-- FX55 stores Vj at `I + j` for every j up to X (R164). -/
theorem State.readByte_storeBlock {s : State} (h : s.mem.wf = true) {x j : Reg} (hj : j ≤ x) :
    (s.storeBlock x).readByte (s.indexed j.val) = s.readV j :=
  State.readByte_foldl_writeByte (fun j : Reg => s.indexed j.val) _ _ h (regsUpTo_nodup x)
    (fun _ _ _ _ hh => s.indexed_inj hh) j ((mem_regsUpTo x j).2 hj)

/-- FX55 stores nowhere else (R164). -/
theorem State.readByte_storeBlock_of_not {s : State} (h : s.mem.wf = true) (x : Reg) (a : Word)
    (ha : ∀ j : Reg, j ≤ x → memIndex a ≠ memIndex (s.indexed j.val)) :
    (s.storeBlock x).readByte a = s.readByte a :=
  State.readByte_foldl_writeByte_of_not _ _ _ h a fun j hj => ha j ((mem_regsUpTo x j).1 hj)

theorem State.loadBlock_frame (s : State) (x : Reg) : s.loadBlock x = { s with v := (s.loadBlock x).v } :=
  s.foldl_writeV_frame _ _

/-- FX65 loads the byte at `I + j` into Vj for every j up to X, and no other register (R165). -/
theorem State.readV_loadBlock (s : State) (x z : Reg) :
    (s.loadBlock x).readV z = if z ≤ x then s.readByte (s.indexed z.val) else s.readV z := by
  rw [State.loadBlock, State.readV_foldl_writeV (fun j : Reg => s.readByte (s.indexed j.val))]
  simp only [mem_regsUpTo]

/-! ### What the blocks depend on -/

theorem State.indexed_congr {s t : State} (h : s.i = t.i) (k : Nat) : s.indexed k = t.indexed k := by
  simp [State.indexed, h]

theorem State.foldl_writeByte_mem_congr {s t : State} (hm : s.mem = t.mem) (f : Reg → Word) (g : Reg → Byte)
    (js : List Reg) :
    (js.foldl (fun u j => u.writeByte (f j) (g j)) s).mem = (js.foldl (fun u j => u.writeByte (f j) (g j)) t).mem := by
  induction js generalizing s t with
  | nil => exact hm
  | cons j js ih => exact ih (congrArg (fun m => Memory.write m (memIndex (f j)) (g j)) hm)

theorem State.foldl_writeV_v_congr {s t : State} (hv : s.v = t.v) (g : Reg → Byte) (js : List Reg) :
    (js.foldl (fun u j => u.writeV j (g j)) s).v = (js.foldl (fun u j => u.writeV j (g j)) t).v := by
  induction js generalizing s t with
  | nil => exact hv
  | cons j js ih => exact ih (congrArg (fun v : Vector Byte 16 => v.set j.val (g j)) hv)

/-- What FX55 leaves in memory depends on the registers, `I` and memory alone (R164). -/
theorem State.storeBlock_mem_congr {s t : State} (hv : s.v = t.v) (hi : s.i = t.i) (hm : s.mem = t.mem) (x : Reg) :
    (s.storeBlock x).mem = (t.storeBlock x).mem := by
  rw [State.storeBlock, State.storeBlock,
    ← State.foldl_writeByte_mem_congr hm (fun j : Reg => t.indexed j.val) (fun j => t.readV j)]
  simp only [State.indexed_congr hi, State.readV_congr hv]

/-- What FX65 leaves in the registers depends on the registers, `I` and memory alone (R165). -/
theorem State.loadBlock_v_congr {s t : State} (hv : s.v = t.v) (hi : s.i = t.i) (hm : s.mem = t.mem) (x : Reg) :
    (s.loadBlock x).v = (t.loadBlock x).v := by
  rw [State.loadBlock, State.loadBlock,
    ← State.foldl_writeV_v_congr hv (fun j : Reg => t.readByte (t.indexed j.val))]
  simp only [State.indexed_congr hi, State.readByte_congr hm]

/-! ### The stack -/

theorem State.push_frame (s : State) (w : Word) :
    s.push w = { s with sp := s.sp - 2, mem := (s.writeWord (s.sp - 2) w).mem } := rfl

/-- What a push leaves in memory, byte by byte (R63, R122). -/
theorem State.readByte_push {s : State} (h : s.mem.wf = true) (w a : Word) :
    (s.push w).readByte a =
      if memIndex a = memIndex (s.sp - 2 + 1) then w.extractLsb' 0 8
      else if memIndex a = memIndex (s.sp - 2) then w.extractLsb' 8 8 else s.readByte a :=
  State.readByte_writeWord h _ _ _

/-- A pop right after a push reads what was pushed (R120, R122). -/
theorem State.stackTop_push {s : State} (h : s.mem.wf = true) (w : Word) : (s.push w).stackTop = w :=
  State.readWord_writeWord h _ _

/-! ### Jumps -/

/-- A jump sets `halt` exactly when its 16-bit target is the instruction's own address (R121, R127). -/
theorem State.jumpTo_halt (s : State) (target : Word) :
    (s.jumpTo target).halt = true ↔ s.halt = true ∨ target = s.instrAddr := by
  simp [State.jumpTo]

theorem State.jumpTo_frame (s : State) (target : Word) :
    s.jumpTo target = { s with pc := target, halt := (s.jumpTo target).halt } := rfl

/-- Seen from the state before the prologue, the instruction's own address is its `pc` (R11). -/
theorem State.instrAddr_advance (s : State) : s.advance.instrAddr = s.pc := by
  simp [State.instrAddr]

/-! ### Flags -/

theorem flagByte_toNat (b : Bool) : (flagByte b).toNat = b.toNat := by cases b <;> rfl

theorem lowBitFlag_eq (x : Byte) : lowBitFlag x = flagByte (x.getLsbD 0) := by
  rw [lowBitFlag, show (1 : Byte) = 1#8 from rfl, BitVec.and_one_eq_setWidth_ofBool_getLsbD]
  cases x.getLsbD 0 <;> rfl

theorem highBitFlag_eq (x : Byte) : highBitFlag x = flagByte (x.getLsbD 7) := by
  rw [highBitFlag, show (1 : Byte) = 1#8 from rfl, BitVec.and_one_eq_setWidth_ofBool_getLsbD, BitVec.getLsbD_ushiftRight]
  cases x.getLsbD 7 <;> rfl

end Sys2Proof.Machine
end

