-- ==== Sys2Proof/Laws/PerInstr.lean ====
section
/-! SUPPORT. Laws of the instructions as syntax, one lemma for each constructor of Instr. The family DecodeEncode: the
word that the encoder gives a well-formed instruction is the word the decoder reads that instruction from (R102). -/

namespace Sys2Proof.Laws.DecodeEncode

/-- A well-formed instruction decodes from its own word. -/
def Statement (i : Instr) : Prop := i.wellFormed = true → decodeWord (encodeWord i) = .ok i

theorem cls : Statement .cls := fun _ => by decide

theorem rts : Statement .rts := fun _ => by decide

theorem jump (nnn : BitVec 12) : Statement (.jump nnn) := fun _ => by simp [encodeWord, decodeWord]

theorem call (nnn : BitVec 12) : Statement (.call nnn) := fun _ => by simp [encodeWord, decodeWord]

theorem skipEqImm (x : Reg) (nn : Byte) : Statement (.skipEqImm x nn) := fun _ => by simp [encodeWord, decodeWord]

theorem skipNeImm (x : Reg) (nn : Byte) : Statement (.skipNeImm x nn) := fun _ => by simp [encodeWord, decodeWord]

theorem skipEqReg (x y : Reg) : Statement (.skipEqReg x y) := fun _ => by simp [encodeWord, decodeWord]

theorem mvi (x : Reg) (nn : Byte) : Statement (.mvi x nn) := fun _ => by simp [encodeWord, decodeWord]

theorem adi (x : Reg) (nn : Byte) : Statement (.adi x nn) := fun _ => by simp [encodeWord, decodeWord]

theorem mov (x y : Reg) : Statement (.mov x y) := fun _ => by simp [encodeWord, decodeWord, decodeFamily8]

theorem or (x y : Reg) : Statement (.or x y) := fun _ => by simp [encodeWord, decodeWord, decodeFamily8]

theorem and (x y : Reg) : Statement (.and x y) := fun _ => by simp [encodeWord, decodeWord, decodeFamily8]

theorem xor (x y : Reg) : Statement (.xor x y) := fun _ => by simp [encodeWord, decodeWord, decodeFamily8]

theorem add (x y : Reg) : Statement (.add x y) := fun _ => by simp [encodeWord, decodeWord, decodeFamily8]

theorem sub (x y : Reg) : Statement (.sub x y) := fun _ => by simp [encodeWord, decodeWord, decodeFamily8]

theorem shr (x y : Reg) : Statement (.shr x y) := fun _ => by simp [encodeWord, decodeWord, decodeFamily8]

theorem subn (x y : Reg) : Statement (.subn x y) := fun _ => by simp [encodeWord, decodeWord, decodeFamily8]

theorem shl (x y : Reg) : Statement (.shl x y) := fun _ => by simp [encodeWord, decodeWord, decodeFamily8]

theorem skipNeReg (x y : Reg) : Statement (.skipNeReg x y) := fun _ => by simp [encodeWord, decodeWord]

theorem mviI (nnn : BitVec 12) : Statement (.mviI nnn) := fun _ => by simp [encodeWord, decodeWord]

theorem jumpV0 (nnn : BitVec 12) : Statement (.jumpV0 nnn) := fun _ => by simp [encodeWord, decodeWord]

theorem rnd (x : Reg) (nn : Byte) : Statement (.rnd x nn) := fun _ => by simp [encodeWord, decodeWord]

theorem sprite (x y : Reg) (n : Nat) : Statement (.sprite x y n) := fun h => by
  have hn : n < 16 := of_decide_eq_true h
  simp [encodeWord, decodeWord, Nat.mod_eq_of_lt hn]

theorem skipKey (x : Reg) : Statement (.skipKey x) := fun _ => by simp [encodeWord, decodeWord, decodeFamilyE]

theorem skipNkey (x : Reg) : Statement (.skipNkey x) := fun _ => by simp [encodeWord, decodeWord, decodeFamilyE]

theorem getDelay (x : Reg) : Statement (.getDelay x) := fun _ => by simp [encodeWord, decodeWord, decodeFamilyF]

theorem key (x : Reg) : Statement (.key x) := fun _ => by simp [encodeWord, decodeWord, decodeFamilyF]

theorem setDelay (x : Reg) : Statement (.setDelay x) := fun _ => by simp [encodeWord, decodeWord, decodeFamilyF]

theorem setSound (x : Reg) : Statement (.setSound x) := fun _ => by simp [encodeWord, decodeWord, decodeFamilyF]

theorem adiI (x : Reg) : Statement (.adiI x) := fun _ => by simp [encodeWord, decodeWord, decodeFamilyF]

theorem spritechar (x : Reg) : Statement (.spritechar x) := fun _ => by simp [encodeWord, decodeWord, decodeFamilyF]

theorem bcd (x : Reg) : Statement (.bcd x) := fun _ => by simp [encodeWord, decodeWord, decodeFamilyF]

theorem storem (x : Reg) : Statement (.storem x) := fun _ => by simp [encodeWord, decodeWord, decodeFamilyF]

theorem loadm (x : Reg) : Statement (.loadm x) := fun _ => by simp [encodeWord, decodeWord, decodeFamilyF]

end Sys2Proof.Laws.DecodeEncode
end

