-- ==== Sys2Proof/Laws/Step.lean ====
section
/-! SUPPORT. What one step can do, said once: the inversion lemmas of step, perform and the sequencer, and the laws of
the events. -/

namespace Sys2Proof.Machine

/-- An instruction or the fault: what one turn of a running core does (R27, R210). -/
theorem State.stepInstr_cases {s t : State} (h : s.stepInstr = .next t) :
    (∃ i, decodeWord s.fetchWord = .ok i ∧ exec i s.advance = .next t) ∨
    (∃ e, decodeWord s.fetchWord = .rejected e ∧
      t = s.advance.raiseUnimplementedOpcode s.pc (s.readByte s.pc) (s.readByte (s.pc + 1))) := by
  unfold State.stepInstr at h
  cases hd : decodeWord s.fetchWord with
  | ok i => exact .inl ⟨i, rfl, by simpa [hd] using h⟩
  | rejected e => exact .inr ⟨e, rfl, by simpa [hd, eq_comm] using h⟩

/-- A turn of the sequencer: an instruction if the core is running, else nothing (R213, R221). -/
theorem State.sequencerTurn_cases {s t : State} (h : s.sequencerTurn = .next t) :
    (s.running = true ∧ s.stepInstr = .next t) ∨ (s.running = false ∧ t = s) := by
  unfold State.sequencerTurn at h
  cases hr : s.running with
  | true => exact .inl ⟨rfl, by simpa [hr] using h⟩
  | false => exact .inr ⟨rfl, by simpa [hr, eq_comm] using h⟩

/-- A step performs the next event of the schedule, or, where there is none, one instruction of a running core. -/
theorem step_cases {s t : State} (h : step s = .next t) :
    (s.schedule = [] ∧ s.running = true ∧ s.stepInstr = .next t) ∨
    (∃ e rest, s.schedule = e :: rest ∧ perform e { s with schedule := rest } = .next t) := by
  unfold step at h
  cases hs : s.schedule with
  | nil =>
    cases hr : s.running with
    | true => exact .inl ⟨rfl, rfl, by simpa [hs, hr] using h⟩
    | false => simp [hs, hr] at h
  | cons e rest => exact .inr ⟨e, rest, rfl, by simpa [hs] using h⟩

theorem step_event {s : State} {e : Event} {rest : List Event} (h : s.schedule = e :: rest) :
    step s = perform e { s with schedule := rest } := by
  simp [step, h]

theorem step_instr {s : State} (h : s.schedule = []) (hr : s.running = true) : step s = s.stepInstr := by
  simp [step, h, hr]

theorem State.running_iff (s : State) : s.running = true ↔ s.halt = false ∧ s.fault = false := by
  simp [State.running]

theorem State.stepInstr_ok {s : State} {i : Instr} (h : decodeWord s.fetchWord = .ok i) :
    s.stepInstr = exec i s.advance := by
  simp [State.stepInstr, h]

/-! ### Events -/

/-- A countdown is truncated subtraction (R203, R204). -/
theorem countDown_toNat (t : Byte) : (countDown t).toNat = t.toNat - 1 := by
  unfold countDown
  split
  · simp_all
  · rename_i h
    have : t.toNat ≠ 0 := fun h0 => h (BitVec.eq_of_toNat_eq h0)
    have := t.isLt
    rw [show (1 : Byte) = 1#8 from rfl, BitVec.toNat_sub, show (1#8).toNat = 1 from rfl]
    omega

/-- A key event sets its key's flag and no other (R225). -/
theorem State.keySet_has (s : State) (k j : Fin 16) (v : Bool) :
    (s.keySet k v).keys.has j = if j = k then v else s.keys.has j := by
  have hjk : decide (j.val = k.val) = decide (j = k) := by simp [Fin.ext_iff]
  simp only [State.keySet, KeyMask.has, BitVec.getLsbD_or, BitVec.getLsbD_and, BitVec.getLsbD_not]
  cases v <;> by_cases h : j = k <;> simp [hjk, h]

theorem State.load_frame (s : State) (rom : List Byte) : s.load rom = { s with mem := (s.load rom).mem } := by
  unfold State.load
  split
  · exact s.writeBytes_frame _ _
  · rfl

theorem State.load_wf {s : State} (h : s.mem.wf = true) (rom : List Byte) : (s.load rom).mem.wf = true := by
  unfold State.load
  split
  · exact State.writeBytes_wf h _ _
  · exact h

end Sys2Proof.Machine
end

