-- ==== Sys2Proof/Tests/Slice0.lean ====
section
/-! SUPPORT. Tests of the model. Expected results are the worked examples and vectors of spec/95_test_vectors.md; each
name ends in the vector's id there. Words are written from the patterns of spec/30_encoding.md R95. The last part shows,
for each obligation that has hypotheses, a concrete state and operands that meet them. -/

namespace Sys2Proof.Tests

open Sys2Proof Sys2Proof.Machine

/-! ### Helpers -/

/-- The start of a single-instruction vector: reset, the word `w` at `a`, `pc` there, and the overrides. -/
def start (a w : Word) (f : State → State := id) : State := f { State.reset.writeWord a w with pc := a }

/-- One step from `s` gives a next state of which `p` holds. -/
def after (s : State) (p : State → Bool) : Bool :=
  match step s with
  | .next t => p t
  | _ => false

/-- The events `es` happen from `s`, and `p` holds of the state they lead to. -/
def afterEvents (es : List Event) (s : State) (p : State → Bool) : Bool :=
  match Host.Core.run Sys2Proof.core es.length { s with schedule := es } with
  | .next t => p t
  | _ => false

/-- Registers V1, V2 and VF set, as the start of section 2.3 has them. -/
def v12f (a b f : Byte) (s : State) : State := ((s.writeV 1 a).writeV 2 b).writeV 15 f

/-- A machine's V1 and VF. -/
def v1f (s : State) : Byte × Byte := (s.readV 1, s.readV 15)

/-! ### Which terms are instructions -/

theorem test_row_count_sixteen_refused : (Instr.sprite 1 2 16).wellFormed = false := by decide

theorem test_row_count_fifteen_accepted : (Instr.sprite 1 2 15).wellFormed = true := by decide

/-! ### Decoding: every constructor, from the spec's patterns -/

/-- Each word decodes to the instruction beside it and encodes back. -/
def decodesTo (l : List (Word × Instr)) : Bool :=
  l.all fun p => decide (decodeWord p.1 = .ok p.2) && decide (encodeWord p.2 = p.1)

theorem test_decode_families_0_1_2 : decodesTo
    [(0b0000_0000_1110_0000, .cls), (0b0000_0000_1110_1110, .rts), (0b0001_1010_1011_1100, .jump 0xABC),
     (0b0010_1111_1111_1111, .call 0xFFF)] = true := by decide

theorem test_decode_families_3_4_5_9 : decodesTo
    [(0b0011_1010_0111_1111, .skipEqImm 10 0x7F), (0b0100_0000_0000_0000, .skipNeImm 0 0x00),
     (0b0101_1010_1011_0000, .skipEqReg 10 11), (0b1001_1010_1011_0000, .skipNeReg 10 11)] = true := by decide

theorem test_decode_families_6_7 : decodesTo
    [(0b0110_1111_1111_1111, .mvi 15 0xFF), (0b0111_0001_0000_0001, .adi 1 0x01)] = true := by decide

theorem test_decode_family_8 : decodesTo
    [(0b1000_1010_1011_0000, .mov 10 11), (0b1000_1010_1011_0001, .or 10 11), (0b1000_1010_1011_0010, .and 10 11),
     (0b1000_1010_1011_0011, .xor 10 11), (0b1000_1010_1011_0100, .add 10 11), (0b1000_1010_1011_0101, .sub 10 11),
     (0b1000_1010_1011_0110, .shr 10 11), (0b1000_1010_1011_0111, .subn 10 11), (0b1000_1010_1011_1110, .shl 10 11),
     (0b1000_0001_1111_0110, .shr 1 15)] = true := by decide

theorem test_decode_families_A_to_D : decodesTo
    [(0b1010_0010_0010_0000, .mviI 0x220), (0b1011_0011_0000_0000, .jumpV0 0x300), (0b1100_0011_0000_1111, .rnd 3 0x0F),
     (0b1101_0001_0010_0101, .sprite 1 2 5), (0b1101_0000_0000_0000, .sprite 0 0 0)] = true := by decide

theorem test_decode_families_E_F : decodesTo
    [(0b1110_0100_1001_1110, .skipKey 4), (0b1110_0100_1010_0001, .skipNkey 4), (0b1111_0101_0000_0111, .getDelay 5),
     (0b1111_0011_0000_1010, .key 3), (0b1111_0000_0001_0101, .setDelay 0), (0b1111_0110_0001_1000, .setSound 6),
     (0b1111_0010_0001_1110, .adiI 2), (0b1111_0000_0010_1001, .spritechar 0), (0b1111_0000_0011_0011, .bcd 0),
     (0b1111_1111_0101_0101, .storem 15), (0b1111_0010_0110_0101, .loadm 2)] = true := by decide

theorem test_undefined_words_of_section_2_1 :
    (([0x0000, 0x00E1, 0x00EF, 0x00FE, 0x0123, 0x0FFF, 0x5121, 0x512F, 0x9121, 0x912F, 0x8128, 0x8129, 0x812A] : List Word) ++
     [0x812B, 0x812C, 0x812D, 0x812F, 0xE000, 0xE19F, 0xE1A0, 0xE1A2, 0xF000, 0xF108, 0xF166, 0xF1FF, 0xFFFF] : List Word).all
      (fun w : Word => decide (decodeWord w = Decoded.rejected (.undefinedWord w))) = true := by decide

theorem test_table_word_and_short_input :
    decodeTableWord 16 0xD125 = some (.sprite 1 2 5) ∧ decodeTableWord 16 0x5121 = none ∧
      decode [0x12] = .rejected .truncated ∧ decode [0x00, 0xEE, 0x12] = .ok (.rts, [0x12]) := by decide

/-! ### Control transfer (section 2.2) -/

theorem test_jump_CF1_CF2 :
    after (start 0x200 0x1333) (fun t => decide (t.pc = 0x333 ∧ t.halt = false)) = true ∧
    after (start 0x200 0x1200) (fun t => decide (t.pc = 0x200 ∧ t.halt = true)) = true := by decide

theorem test_jump_compares_16_bits_CF4 :
    after (start 0x1200 0x1200) (fun t => decide (t.pc = 0x200 ∧ t.halt = false) &&
      after t (fun u => decide (u.pc = 0x200 ∧ u.halt = true))) = true := by decide

theorem test_call_CF6_CF9 :
    after (start 0x204 0x2210) (fun t => decide (t.sp = 0xFFE ∧ t.readByte 0xFFE = 0x02 ∧ t.readByte 0xFFF = 0x06 ∧
      t.pc = 0x210)) = true ∧
    after (start 0x200 0x2200) (fun t => decide (t.sp = 0xFFE ∧ t.pc = 0x200 ∧ t.halt = false)) = true := by decide

theorem test_call_wraps_and_straddles_CF7_CF8 :
    after (start 0x200 0x2300 fun s => { s with sp := 0 }) (fun t => decide (t.sp = 0xFFFE ∧ t.readByte 0xFFE = 0x02 ∧
      t.readByte 0xFFF = 0x02 ∧ t.pc = 0x300)) = true ∧
    after (start 0xABC 0x2345 fun s => { s with sp := 1 }) (fun t => decide (t.sp = 0xFFFF ∧ t.readByte 0xFFF = 0x0A ∧
      t.readByte 0x000 = 0xBE ∧ t.pc = 0x345)) = true := by decide

theorem test_rts_CF11_CF12 :
    after (start 0x200 0x00EE) (fun t => decide (t.pc = 0xF090 ∧ t.sp = 0x1002)) = true ∧
    after (start 0x200 0x00EE fun s => { s.writeWord 0xFFE 0x1235 with sp := 0xFFFE })
      (fun t => decide (t.pc = 0x1235 ∧ t.sp = 0)) = true := by decide

theorem test_skip_imm_CF13_to_CF16 :
    after (start 0x200 0x3A7F (·.writeV 10 0x7F)) (fun t => decide (t.pc = 0x204)) = true ∧
    after (start 0x200 0x3A7F (·.writeV 10 0x7E)) (fun t => decide (t.pc = 0x202)) = true ∧
    after (start 0x200 0x4A7F (·.writeV 10 0x7F)) (fun t => decide (t.pc = 0x202)) = true ∧
    after (start 0x200 0x4A7F (·.writeV 10 0x7E)) (fun t => decide (t.pc = 0x204)) = true := by decide

theorem test_skip_reg_CF17_to_CF20 :
    after (start 0x300 0x5120 (v12f 7 7 0)) (fun t => decide (t.pc = 0x304)) = true ∧
    after (start 0x300 0x5120 (v12f 7 8 0)) (fun t => decide (t.pc = 0x302)) = true ∧
    after (start 0x300 0x9120 (v12f 7 8 0)) (fun t => decide (t.pc = 0x304)) = true ∧
    after (start 0x300 0x9120 (v12f 7 7 0)) (fun t => decide (t.pc = 0x302)) = true := by decide

theorem test_skip_wraps_CF22 :
    after (start 0xFFFE 0x3000) (fun t => decide (t.pc = 0x0002)) = true := by decide

theorem test_jump_v0_CF25_CF26 :
    after (start 0x200 0xB1FE (·.writeV 0 2)) (fun t => decide (t.pc = 0x200 ∧ t.halt = true)) = true ∧
    after (start 0x200 0xBFFF (·.writeV 0 0xFF)) (fun t => decide (t.pc = 0x10FE ∧ t.halt = false)) = true := by decide

theorem test_odd_fetch_across_the_top_CF29 :
    after (start 0xFFF 0x6A77) (fun t => decide (t.readV 10 = 0x77 ∧ t.pc = 0x1001)) = true := by decide

/-! ### Register, arithmetic, logic, shift, random (section 2.3) -/

/-- One word at 0x200 from V1, V2 and VF: V1 and VF afterwards, V2 as it was, `pc` at 0x202. -/
def alu (w : Word) (a b f a' f' : Byte) : Bool :=
  after (start 0x200 w (v12f a b f)) fun t => decide (v1f t = (a', f') ∧ t.readV 2 = b ∧ t.pc = 0x202)

theorem test_load_and_add_immediate_AL1_AL4 :
    alu 0x6105 0x00 0x00 0x55 0x05 0x55 = true ∧ alu 0x7101 0xFF 0x00 0x55 0x00 0x55 = true := by decide

theorem test_mov_and_logic_AL5_to_AL8 :
    alu 0x8120 0x11 0x22 0x55 0x22 0x55 = true ∧ alu 0x8121 0xF0 0x0F 0x55 0xFF 0x55 = true ∧
    alu 0x8122 0xF0 0x3C 0x55 0x30 0x55 = true ∧ alu 0x8123 0xFF 0x0F 0x55 0xF0 0x55 = true := by decide

theorem test_add_AL9_AL10 :
    alu 0x8124 0xFF 0x01 0x55 0x00 0x01 = true ∧ alu 0x8124 0x80 0x7F 0x55 0xFF 0x00 = true := by decide

theorem test_sub_AL13_to_AL15 :
    alu 0x8125 0x05 0x03 0x55 0x02 0x01 = true ∧ alu 0x8125 0x00 0x01 0x55 0xFF 0x00 = true ∧
    alu 0x8125 0x10 0x10 0x55 0x00 0x01 = true := by decide

theorem test_shr_AL16_AL17 :
    alu 0x8126 0x03 0xAA 0x55 0x01 0x01 = true ∧ alu 0x8126 0x80 0xAA 0x55 0x40 0x00 = true := by decide

theorem test_subn_AL19_AL20 :
    alu 0x8127 0x03 0x05 0x55 0x02 0x01 = true ∧ alu 0x8127 0x05 0x03 0x55 0xFE 0x00 = true := by decide

theorem test_shl_AL22_AL23 :
    alu 0x812E 0x81 0xAA 0x55 0x02 0x01 = true ∧ alu 0x812E 0x40 0xAA 0x55 0x80 0x00 = true := by decide

theorem test_vf_as_destination_VF2_to_VF8 :
    alu 0x8F24 0x00 0x02 0x01 0x00 0x00 = true ∧ alu 0x8F25 0x00 0x03 0x05 0x00 0x02 = true ∧
    alu 0x8F26 0x00 0x00 0x03 0x00 0x01 = true ∧ alu 0x8F27 0x00 0x05 0x03 0x00 0x02 = true ∧
    alu 0x8F2E 0x00 0x00 0xC0 0x00 0x80 = true := by decide

theorem test_vf_as_source_VF9_VF10_VF12 :
    alu 0x81F4 0xFF 0x00 0x01 0x00 0x01 = true ∧ alu 0x81F5 0x05 0x00 0x09 0xFC 0x00 = true ∧
    alu 0x81F7 0x05 0x00 0x09 0x04 0x01 = true := by decide

/-- Whatever the draw, CX0F leaves the draw's low nibble and VF alone, and CX00 leaves 0 (AL25, AL26). -/
theorem test_rnd_AL25_AL26 :
    (∃ t, step (start 0x200 0xC30F (v12f 0 0 0x55)) = .next t ∧ t.readV 3 = Config.rnd8 0 &&& 0x0F ∧
      t.readV 15 = 0x55 ∧ t.draws = 1) ∧
    (∃ t, step (start 0x200 0xC300) = .next t ∧ t.readV 3 = Config.rnd8 0 &&& 0) :=
  ⟨⟨_, rfl, rfl, rfl, rfl⟩, _, rfl, rfl⟩

/-! ### Index register and memory (section 2.4) -/

theorem test_load_index_IM1_IM2 :
    after (start 0x200 0xA220) (fun t => decide (t.i = 0x220)) = true ∧
    after (start 0x200 0xAFFF) (fun t => decide (t.i = 0xFFF)) = true := by decide

theorem test_add_index_IM4_IM5_IM6 :
    after (start 0x200 0xF21E fun s => { s.writeV 2 0x02 with i := 0xFFF }) (fun t => decide (t.i = 0x001)) = true ∧
    after (start 0x200 0xF21E fun s => { s.writeV 2 0xFF with i := 0xFFFF }) (fun t => decide (t.i = 0x0FE)) = true ∧
    after (start 0x200 0xF01E fun s => { (s.writeV 0 1).writeV 15 0x55 with i := 0xFFF })
      (fun t => decide (t.i = 0 ∧ t.readV 15 = 0x55)) = true := by decide

theorem test_spritechar_IM8_IM9 :
    after (start 0x200 0xF029 (·.writeV 0 0x0F)) (fun t => decide (t.i = 0x04B)) = true ∧
    after (start 0x200 0xF029 (·.writeV 0 0xFF)) (fun t => decide (t.i = 0x4FB)) = true := by decide

theorem test_bcd_IM10_IM12 :
    after (start 0x200 0xF033 fun s => { s.writeV 0 0xEA with i := 0x300 }) (fun t => decide (t.readByte 0x300 = 2 ∧
      t.readByte 0x301 = 3 ∧ t.readByte 0x302 = 4 ∧ t.i = 0x300)) = true ∧
    after (start 0x200 0xF033 fun s => { s.writeV 0 0xFF with i := 0xFFE }) (fun t => decide (t.readByte 0xFFE = 2 ∧
      t.readByte 0xFFF = 5 ∧ t.readByte 0x000 = 5 ∧ t.i = 0xFFE)) = true := by decide

theorem test_storem_IM13_IM16 :
    after (start 0x200 0xF255 fun s => { ((s.writeV 0 0xAA).writeV 1 0xBB).writeV 2 0xCC with i := 0x400 })
      (fun t => decide (t.readByte 0x400 = 0xAA ∧ t.readByte 0x401 = 0xBB ∧ t.readByte 0x402 = 0xCC ∧
        t.readByte 0x403 = 0 ∧ t.i = 0x403)) = true ∧
    after (start 0x200 0xF055 fun s => { s.writeV 0 0xAB with i := 0xFFFF })
      (fun t => decide (t.readByte 0xFFF = 0xAB ∧ t.i = 0)) = true := by decide

theorem test_loadm_IM18_IM19 :
    after (start 0x200 0xF165 fun s => { s.writeWord 0xFFF 0x1122 with i := 0xFFF })
      (fun t => decide (t.readV 0 = 0x11 ∧ t.readV 1 = 0x22 ∧ t.i = 0x1001)) = true ∧
    after (start 0x200 0xFF65) (fun t => decide (t.v = #v[0xF0, 0x90, 0x90, 0x90, 0xF0, 0x20, 0x60, 0x20, 0x20, 0x70,
      0xF0, 0x10, 0xF0, 0x80, 0xF0, 0xF0] ∧ t.i = 0x010)) = true := by decide

/-! ### Display (section 2.5) -/

/-- The framebuffer bytes at these places. -/
def fbShows (s : State) (l : List (Nat × Byte)) : Bool := l.all fun p => decide (Framebuffer.byte s.fb p.1 = p.2)

theorem test_cls_DR14 :
    after (start 0x200 0x00E0 fun s => { s.writeV 15 7 with fb := s.fb.set 5 0xFF })
      (fun t => fbShows t [(4, 0), (5, 0), (6, 0)] && decide (t.redraw = true ∧ t.readV 15 = 7)) = true := by decide

theorem test_sprite_clips_at_both_edges_DR11 :
    after (start 0x200 0xD125 fun s => { v12f 0x3E 0x1D 0x55 s with i := 0x019 })
      (fun t => fbShows t [(231, 0), (239, 3), (247, 2), (255, 3), (240, 0), (7, 0)] &&
        decide (t.readV 15 = 0 ∧ t.redraw = true)) = true := by decide +kernel

theorem test_sprite_straddles_and_collides_DR3_DR5_DR6 :
    after (start 0x200 0xD011 fun s => (s.writeV 0 5).writeV 1 2)
      (fun t => fbShows t [(15, 0), (16, 0x07), (17, 0x80), (18, 0), (24, 0)] && decide (t.readV 15 = 0)) = true ∧
    after (start 0x200 0xD011 fun s => { s with fb := s.fb.set 0 0x40 })
      (fun t => fbShows t [(0, 0xB0), (1, 0), (8, 0)] && decide (t.readV 15 = 1 ∧ t.redraw = true)) = true ∧
    after (start 0x200 0xD011 fun s => { s with fb := s.fb.set 0 0x08 })
      (fun t => fbShows t [(0, 0xF8), (1, 0), (8, 0)] && decide (t.readV 15 = 0)) = true := by decide +kernel

/-! ### Keypad (section 2.6) -/

theorem test_key_level_KY1_to_KY5 :
    after (start 0x200 0xE49E fun s => { s.writeV 4 0x0A with keys := 0x0400 }) (fun t => decide (t.pc = 0x204)) = true ∧
    after (start 0x200 0xE49E fun s => { s.writeV 4 0x0A with keys := 0xFBFF }) (fun t => decide (t.pc = 0x202)) = true ∧
    after (start 0x200 0xE4A1 fun s => { s.writeV 4 0x0A with keys := 0xFBFF }) (fun t => decide (t.pc = 0x204)) = true ∧
    after (start 0x200 0xE4A1 fun s => { s.writeV 4 0x0A with keys := 0x0400 }) (fun t => decide (t.pc = 0x202)) = true ∧
    after (start 0x200 0xE49E fun s => { s.writeV 4 0x1A with keys := 0x0400 }) (fun t => decide (t.pc = 0x204)) = true := by
  decide

/-- `F30A` at 0x200 over the samples `ls` of the keys: V3, whether the wait goes on, and `pc`. -/
def keyWait (ls : List KeyMask) : Byte × KeyWait × Word :=
  let t := keyCycles 3 ls (start 0x200 0xF30A)
  (t.readV 3, t.kw, t.pc)

theorem test_key_wait_K1_to_K6 :
    keyWait [0, 0x0020, 0x0020, 0x0020, 0x0020] = (0, .waiting, 0x200) ∧
    keyWait [0, 0x0020, 0] = (5, .idle, 0x202) ∧
    keyWait [0x0200, 0x0200, 0, 0] = (0, .waiting, 0x200) ∧
    keyWait [0x0200, 0, 0x0200, 0] = (9, .idle, 0x202) ∧
    keyWait [0, 0x0004, 0x0804, 0x0004] = (0x0B, .idle, 0x202) ∧
    keyWait [0, 0x1010, 0] = (4, .idle, 0x202) := by decide

theorem test_key_wait_as_steps_K2 :
    afterEvents [.step, .keySet 5 true, .step, .keySet 5 false, .step] (start 0x200 0xF30A)
      (fun t => decide (t.readV 3 = 5 ∧ t.kw = .idle ∧ t.pc = 0x202)) = true := by decide

/-! ### Timers and events (sections 2.7 and 2.9) -/

theorem test_set_delay_and_floor_TM1 :
    afterEvents [.step, .tick, .tick, .tick, .tick, .tick] (start 0x200 0xF015 (·.writeV 0 3))
      (fun t => decide (t.dt = 0)) = true ∧
    afterEvents [.step, .tick] (start 0x200 0xF015 (·.writeV 0 3)) (fun t => decide (t.dt = 2)) = true := by decide

theorem test_set_sound_TM6 :
    after (start 0x200 0xF618 (·.writeV 6 0x10)) (fun t => decide (t.st = 0x10 ∧ t.dt = 0)) = true := by decide

theorem test_get_delay_TM5 :
    after (start 0x200 0xF507 fun s => { s with dt := 0x2A }) (fun t => decide (t.readV 5 = 0x2A ∧ t.dt = 0x2A)) = true := by
  decide

theorem test_tick_while_halted_TM8 :
    afterEvents [.tick, .step] { State.reset with halt := true, dt := 5 }
      (fun t => decide (t.dt = 4 ∧ t.halt = true ∧ t.pc = 0x200)) = true := by decide

theorem test_reset_and_load_RS1_RS2 :
    State.reset.readByte 0x000 = 0xF0 ∧ State.reset.readByte 0x04F = 0x80 ∧ State.reset.readByte 0x050 = 0 ∧
    (State.launched [0x60, 0x05, 0x70, 0x03]).mem = [(0x200, 0x60), (0x201, 0x05), (0x202, 0x70), (0x203, 0x03)] := by
  decide

theorem test_longest_image_RS3_RS4 :
    (State.reset.load (List.replicate 3585 0x12)).mem = [] ∧
    (State.reset.load [0x12]).mem = [(0x200, 0x12)] := by
  constructor
  · rw [State.load, if_neg (by rw [List.length_replicate]; decide)]; rfl
  · decide

/-- The first worked example of the source (section 1.1, S1). -/
theorem test_example_S1 :
    afterEvents [.load [0x60, 0x05, 0x70, 0x03], .step, .step] State.reset
      (fun t => decide (t.readV 0 = 8 ∧ t.pc = 0x204 ∧ t.readV 15 = 0)) = true := by decide

/-! ### The fault (section 2.8) -/

theorem test_fault_FT2 :
    after (start 0x200 0x0123 (·.writeV 1 0x77)) (fun t => decide (t.fault = true ∧ t.faultAddr = 0x200 ∧
      t.faultB0 = 0x01 ∧ t.faultB1 = 0x23 ∧ t.pc = 0x202 ∧ t.halt = false ∧ t.readV 1 = 0x77)) = true := by decide

theorem test_fault_is_sticky_FT9 :
    afterEvents [.step, .step, .tick, .quit, .step] { State.reset with dt := 3 }
      (fun t => decide (t.fault = true ∧ t.halt = true ∧ t.pc = 0x202 ∧ t.dt = 2 ∧ t.faultAddr = 0x200)) = true ∧
    afterEvents [.step, .reset] State.reset (fun t => decide (t.fault = false ∧ t.halt = false ∧ t.pc = 0x200)) = true := by
  decide

theorem test_stop_reports :
    step { State.reset with halt := true } = .fault .halted ∧
    step { State.reset with halt := true, fault := true, faultAddr := 0x202, faultB0 := 1, faultB1 := 2 } =
      .fault (.unimplementedOpcode 0x202 1 2) := ⟨rfl, rfl⟩

/-! ### The interface -/

theorem test_fetch_word_runs_first :
    after (State.reset.withFetchWord 16 0x6105) (fun t => decide (t.readV 1 = 5 ∧ t.pc = 0x202)) = true ∧
    after ({ State.reset with halt := true, schedule := [.tick] }.withFetchWord 16 0xA220)
      (fun t => decide (t.i = 0x220)) = true := by decide

theorem test_trace_entry :
    traceEntry 0x200 0xD1 0x25 = some ⟨0x200, 0xD1, 0x25, "SPRITE", [1, 2, 5]⟩ ∧ traceEntry 0x200 0x00 0x00 = none := by decide

/-! ### Witnesses: states and operands that meet the hypotheses of the obligations -/

/-- A state with a memory that is not empty, a byte at each end of the store. -/
def inked : State := { State.reset with mem := [(0x000, 0x11), (0x300, 0x7F), (0xFFF, 0x22)], i := 0x300, sp := 0xFFE }

theorem witness_EncodedInstructionDecodesBack :
    (Instr.sprite 15 15 15).wellFormed = true ∧ (Instr.sprite 0 0 0).wellFormed = true := by decide

theorem witness_DecodedWordEncodesBack :
    decodeWord 0xDFFF = .ok (.sprite 15 15 15) ∧ decodeWord 0x00E0 = .ok .cls := by decide

theorem witness_DefinedExactlyByMaskAndMatch :
    (⟨"SHL", 0x800E, 0xF00F⟩ : OpcodeRow) ∈ opcodeRows ∧ (0x8FFE : Word) &&& 0xF00F = 0x800E ∧
      decodeWord 0x8FFE = .ok (.shl 15 15) := by decide

theorem witness_AtMostOneRowMatches :
    (⟨"LOADM", 0xF065, 0xF0FF⟩ : OpcodeRow) ∈ opcodeRows ∧ (0xF265 : Word) &&& 0xF0FF = 0xF065 := by decide

theorem witness_AddressesAreMaskedAtTheStore : (0xFFFF : Word).toNat % 4096 = (0x0FFF : Word).toNat % 4096 := by decide

/-- For ByteWriteSetsThatByteOnly, CallPushesTheReturnAddress and BcdStoresThreeDigits. -/
theorem witness_memory_is_canonical : inked.mem.wf = true ∧ inked.mem ≠ [] := by decide

theorem witness_StoredWordIsBigEndian :
    inked.mem.wf = true ∧ (0x0001 : Word).toNat % 4096 ≠ (0xFFFF : Word).toNat % 4096 ∧
      (0x0001 : Word).toNat % 4096 ≠ ((0xFFFF : Word).toNat + 1) % 4096 := by decide

theorem witness_CanonicalMemoriesThatReadAlikeAreEqual :
    ∃ m m' : Memory, m.wf = true ∧ m'.wf = true ∧ m ≠ [] ∧ ∀ a, a < 4096 → m.read a = m'.read a :=
  ⟨inked.mem, inked.mem, by decide, by decide, by decide, fun _ _ => rfl⟩

/-- A machine about to run `w` at 0x200. -/
def ready (w : Word) : State := start 0x200 w

/-- The same machine with a step event named and more to come. -/
def readyEvent (w : Word) : State := { start 0x200 w with schedule := [.step, .tick] }

theorem witness_StepRunsTheDecodedInstruction :
    ((ready 0x6105).schedule = [] ∧ (ready 0x6105).halt = false ∧ (ready 0x6105).fault = false ∧
      decode [(ready 0x6105).mem.read ((ready 0x6105).pc.toNat % 4096),
        (ready 0x6105).mem.read (((ready 0x6105).pc.toNat + 1) % 4096)] = .ok (.mvi 1 5, [])) ∧
    ((readyEvent 0x6105).schedule = .step :: [.tick] ∧ (readyEvent 0x6105).halt = false ∧
      (readyEvent 0x6105).fault = false ∧
      decode [(readyEvent 0x6105).mem.read ((readyEvent 0x6105).pc.toNat % 4096),
        (readyEvent 0x6105).mem.read (((readyEvent 0x6105).pc.toNat + 1) % 4096)] = .ok (.mvi 1 5, [])) := by decide

theorem witness_UndefinedWordLatchesTheReport :
    ((ready 0x5121).schedule = [] ∧ (ready 0x5121).halt = false ∧ (ready 0x5121).fault = false ∧
      decodeWord (ready 0x5121).fetchWord = .rejected (.undefinedWord 0x5121)) ∧
    ((readyEvent 0x5121).schedule = .step :: [.tick] ∧ (readyEvent 0x5121).halt = false ∧
      (readyEvent 0x5121).fault = false ∧
      decodeWord (readyEvent 0x5121).fetchWord = .rejected (.undefinedWord 0x5121)) := by decide

/-- A core that has met an undefined word, with the events `es` to come. -/
def faulted (es : List Event) : State :=
  { State.reset with fault := true, faultAddr := 0x202, faultB0 := 0x51, faultB1 := 0x21, schedule := es }

/-- A halted core, with the events `es` to come. -/
def halted (es : List Event) : State := { State.reset with halt := true, schedule := es }

theorem witness_StoppedCoreIssuesNoStep :
    ((faulted [.step]).fault = true ∧ (faulted [.step]).schedule = .step :: []) ∧
    ((faulted []).fault = true ∧ (faulted []).schedule = []) ∧
    ((halted []).halt = true ∧ (halted []).fault = false ∧ (halted []).schedule = []) := by decide

theorem witness_OnlyResetClearsHaltAndFault :
    (∃ t, step (faulted [.quit]) = .next t ∧ (faulted [.quit]).schedule.head? ≠ some .reset ∧
      (faulted [.quit]).fault = true) ∧
    (∃ t, step (halted [.load [0x12]]) = .next t ∧ (halted [.load [0x12]]).schedule.head? ≠ some .reset ∧
      (halted [.load [0x12]]).halt = true) :=
  ⟨⟨_, rfl, by decide, rfl⟩, ⟨_, rfl, by decide, rfl⟩⟩

theorem witness_RunningCoreIsNeverStuck :
    ((ready 0x0000).quirks = Quirks.canonical ∧ (ready 0x0000).halt = false ∧ (ready 0x0000).fault = false) ∧
    ((faulted [.step]).quirks = Quirks.canonical ∧ (faulted [.step]).schedule ≠ []) := by decide

theorem witness_OnlySelfJumpOrQuitHalts :
    (∃ t, step (ready 0x1200) = .next t ∧ (ready 0x1200).halt = false ∧ t.halt = true) ∧
    (∃ t, step (faulted [.quit]) = .next t ∧ (faulted [.quit]).halt = false ∧ t.halt = true) :=
  ⟨⟨_, rfl, rfl, by decide⟩, ⟨_, rfl, rfl, rfl⟩⟩

theorem witness_WithFetchWordRunsTheTableWord :
    inked.mem.wf = true ∧ decodeTableWord 16 0xF265 = some (.loadm 2) := by decide

theorem witness_EveryStepKeepsTheInvariant :
    (∃ t, inked.Inv ∧ step inked = .next t) ∧ ∃ t, (ready 0xF30A).Inv ∧ step (ready 0xF30A) = .next t :=
  ⟨⟨_, ⟨by decide, by decide, fun h => by cases h⟩, rfl⟩, ⟨_, ⟨by decide, by decide, fun h => by cases h⟩, rfl⟩⟩

theorem witness_QuirkFlagsAreConstant : ∃ t, step (halted [.reset]) = .next t := ⟨_, rfl⟩

/-- For each clause, an instruction that changes the field it speaks of. -/
theorem witness_EachFieldHasItsWriters :
    (∃ t, exec (.mvi 3 5) inked = .next t ∧ t.readV 3 ≠ inked.readV 3) ∧
    (∃ t, exec (.rnd 3 5) inked = .next t ∧ t.draws ≠ inked.draws) ∧
    (∃ t, exec (.mviI 5) inked = .next t ∧ t.i ≠ inked.i) ∧
    (∃ t, exec (.skipEqReg 1 1) inked = .next t ∧ t.pc ≠ inked.pc) ∧
    (∃ t, exec .rts inked = .next t ∧ t.sp ≠ inked.sp) ∧
    (∃ t, exec (.setDelay 1) { inked with dt := 1 } = .next t ∧ t.dt ≠ 1) ∧
    (∃ t, exec (.setSound 1) { inked with st := 1 } = .next t ∧ t.st ≠ 1) ∧
    (∃ t, exec (.bcd 1) inked = .next t ∧ t.readByte 0x300 ≠ inked.readByte 0x300) ∧
    (∃ t, exec (.sprite 1 1 1) inked = .next t ∧ Framebuffer.byte t.fb 0 ≠ Framebuffer.byte inked.fb 0 ∧
      t.redraw ≠ inked.redraw) ∧
    (∃ t, exec (.jump 0x300) { inked with pc := 0x302 } = .next t ∧ t.halt ≠ inked.halt) ∧
    (∃ t, exec (.key 1) inked = .next t ∧ t.kw ≠ inked.kw) :=
  ⟨⟨_, rfl, by decide⟩, ⟨_, rfl, by decide⟩, ⟨_, rfl, by decide⟩, ⟨_, rfl, by decide⟩, ⟨_, rfl, by decide⟩,
    ⟨_, rfl, by decide⟩, ⟨_, rfl, by decide⟩, ⟨_, rfl, by decide⟩, ⟨_, rfl, by decide +kernel⟩, ⟨_, rfl, by decide⟩, ⟨_, rfl, by decide⟩⟩

theorem witness_FramebufferIsWrittenAndReadByDisplayOnly :
    (∃ t, step ({ ready 0x00E0 with fb := (ready 0x00E0).fb.set 0 1 }) = .next t ∧
      Framebuffer.byte t.fb 0 ≠ Framebuffer.byte ((ready 0x00E0).fb.set 0 1) 0) ∧
    (∃ t t' : State, exec (.sprite 1 1 1) inked = .next t ∧
      exec (.sprite 1 1 1) { inked with fb := inked.fb.set 0 0xFF } = .next t' ∧ t'.readV 15 ≠ t.readV 15) :=
  ⟨⟨_, rfl, by decide⟩, _, _, rfl, rfl, by decide +kernel⟩

theorem witness_OnlyKeyReadsAndWritesTheKeyWait : (Instr.loadm 15).mnemonic ≠ "KEY" := by decide

theorem witness_OnlyCallAndRtsUseTheStackPointer : (Instr.storem 15).mnemonic ∉ ["CALL", "RTS"] := by decide

theorem witness_SoundTimerAndHostFlagsAreNotRead :
    (Instr.setDelay 0).mnemonic ≠ "SET_SOUND" ∧ ∃ t, exec (.sprite 1 1 1) inked = .next t := ⟨by decide, _, rfl⟩

theorem witness_TicksCommuteWithOtherInstructions :
    (Instr.key 3).mnemonic ∉ ["GET_DELAY", "SET_DELAY", "SET_SOUND"] := by decide

theorem witness_ReturnUndoesCall :
    ∃ t u : State, inked.mem.wf = true ∧ exec (.call 0xFFF) inked = .next t ∧ u.mem = t.mem ∧ u.sp = t.sp :=
  ⟨_, _, by decide, rfl, rfl, rfl⟩

/-- Also for JumpV0AddsV0. -/
theorem witness_JumpGoesToNnnAndHaltsOnItself :
    { inked with pc := 0x302 }.pc = (0x300 : Word) + 2 ∧ { inked with pc := 0x0001 }.pc = (0xFFFF : Word) + 2 ∧
      inked.quirks.selfJumpHalt = true := by
  decide

theorem witness_SkipPassesOverOneInstruction :
    ((ready 0x3000).schedule = [] ∧ (ready 0x3000).halt = false ∧ (ready 0x3000).fault = false ∧
      decodeWord (ready 0x3000).fetchWord = .ok (.skipEqImm 0 0) ∧
      skipCondition (.skipEqImm 0 0) (ready 0x3000) = some true) ∧
    (decodeWord (ready 0x4000).fetchWord = .ok (.skipNeImm 0 0) ∧
      skipCondition (.skipNeImm 0 0) (ready 0x4000) = some false) := by decide

/-- For AddAndSubtractSetVf, ShiftsSetVf, FlagRegisterAsDestination, StoremStoresTheBlock, LoadmLoadsTheBlock,
ClsZeroesTheFramebuffer and SpriteInvertsTheCoveredPixels (with the canonical memory above for the stores). -/
theorem witness_operand_forms_and_default_quirks :
    (14 : Reg) ≠ 15 ∧ inked.quirks.shiftVy = false ∧ inked.quirks.loadStoreIncI = true ∧
      inked.quirks.spriteWrap = false ∧ inked.quirks.fbBytePerPixel = false := by decide

/-- A machine at the other setting of every quirk flag. -/
def otherQuirks : State :=
  { inked with quirks :=
      { shiftVy := true, loadStoreIncI := false, spriteWrap := true, fbBytePerPixel := true, selfJumpHalt := false } }

theorem witness_OtherQuirkSettingsAreRefused :
    otherQuirks.quirks.shiftVy = true ∧ otherQuirks.quirks.loadStoreIncI = false ∧
      otherQuirks.quirks.spriteWrap = true ∧ otherQuirks.quirks.fbBytePerPixel = true ∧
      otherQuirks.quirks.selfJumpHalt = false := by decide

theorem witness_SpritecharPointsAtTheGlyph :
    (State.reset.writeV 3 15).mem = [] ∧ ((State.reset.writeV 3 15).readV 3).toNat < 16 := by decide

/-- For StoremStoresTheBlock: a byte outside the longest block. -/
theorem witness_frame_of_a_block :
    ∀ j : Reg, j ≤ 15 → memIndex (inked.indexed 16) ≠ memIndex (inked.indexed j.val) := by decide

theorem witness_StoremThenLoadmRestores :
    ∃ t u w : State, inked.mem.wf = true ∧ inked.quirks.loadStoreIncI = true ∧ exec (.storem 15) inked = .next t ∧
      (u.mem = t.mem ∧ u.quirks = t.quirks ∧ u.i = inked.i) ∧ w.mem = t.mem ∧ w.quirks = t.quirks ∧ w.i = t.i := by
  refine ⟨_, ?_, ?_, by decide, rfl, rfl, ?_⟩
  · exact { inked.storeBlock 15 with i := inked.i }
  · exact { inked.storeBlock 15 with i := inked.indexAfterBlock 15 }
  · exact ⟨⟨rfl, rfl, rfl⟩, rfl, rfl, rfl⟩

theorem witness_SpriteInvertsTheCoveredPixels :
    (onGrid 1 0 ∧ inked.spriteCovers 1 1 1 1 0 = true ∧
      Framebuffer.pixel ({ inked with fb := inked.fb.set 0 0xFF }).fb 1 0 = true) ∧
    (onGrid 63 31 ∧ inked.spriteCovers 1 1 1 63 31 = false) := ⟨⟨⟨by decide, by decide⟩, by decide⟩, ⟨by decide, by decide⟩, by decide⟩

theorem witness_DrawingTwiceRestoresTheScreen :
    ∃ t, exec (.sprite 1 2 15) (v12f 0x3F 0x1F 0 inked) = .next t ∧
      (t.readV 1).toNat % 64 = ((v12f 0x3F 0x1F 0 inked).readV 1).toNat % 64 ∧
      (t.readV 2).toNat % 32 = ((v12f 0x3F 0x1F 0 inked).readV 2).toNat % 32 := ⟨_, rfl, rfl, rfl⟩

theorem witness_KeyWaitsAndResolves :
    inked.kw = .idle ∧
    (∃ s : State, s.kw = .waiting ∧ (s.kwArmed.has 15 && s.kwPrev.has 15 && !s.keys.has 15) = true ∧
      ∀ j, j < 15 → (s.kwArmed.has j && s.kwPrev.has j && !s.keys.has j) = false) ∧
    (∃ s : State, s.kw = .waiting ∧ ∀ j, (s.kwArmed.has j && s.kwPrev.has j && !s.keys.has j) = false) :=
  ⟨rfl, ⟨{ inked with kw := .waiting, kwArmed := 0x8000, kwPrev := 0x8000 }, rfl, by decide, by decide⟩,
    ⟨{ inked with kw := .waiting, kwArmed := 0x8000, kwPrev := 0x8000, keys := 0x8000 }, rfl, by decide⟩⟩

/-- The samples of vector K6: keys 4 and C go down together and up together. -/
theorem witness_KeyWaitEndsAtTheFirstPressThenRelease :
    inked.kw = .idle ∧ ([0, 0x1010] : List KeyMask) ≠ [] ∧ (¬ ∃ k, PressedThenReleased [0, 0x1010] k) ∧
      PressedThenReleased ([0, 0x1010] ++ [0]) 4 ∧ ∀ j, j < 4 → ¬ PressedThenReleased ([0, 0x1010] ++ [0]) j := by
  refine ⟨rfl, by decide, ?_, ⟨0, 1, 2, by decide, by decide, by decide, by decide, by decide, by decide⟩, ?_⟩
  · rintro ⟨k, p, q, r, hpq, hqr, hr, -⟩
    simp only [List.length_cons, List.length_nil] at hr
    omega
  · rintro j hj ⟨p, q, r, hpq, hqr, hr, -, h, -⟩
    simp only [List.length_append, List.length_cons, List.length_nil] at hr
    obtain rfl : q = 1 := by omega
    revert j
    decide

/-- For TickCountsBothTimersDown, HostEventsChangeTheirFlagOnly and ResetValues. -/
theorem witness_events :
    ({ inked with schedule := [.tick] }.schedule = .tick :: []) ∧
    (∃ k v, { inked with schedule := [.keySet 15 true] }.schedule = .keySet k v :: []) ∧
    ({ inked with schedule := [.redrawAck] }.schedule = .redrawAck :: []) ∧
    ({ inked with schedule := [.quit] }.schedule = .quit :: []) ∧
    ((halted [.reset]).schedule = .reset :: []) :=
  ⟨rfl, ⟨15, true, rfl⟩, rfl, rfl, rfl⟩

/-- Images at the two sides of the loader's bound. -/
theorem witness_LoadPlacesTheRom :
    ∃ s : State, s.mem.wf = true ∧ s.mem ≠ [] ∧ s.schedule = .load (List.replicate 3584 0x12) :: [] ∧
      (List.replicate 3584 (0x12 : Byte)).length ≤ 3584 ∧ 3584 < (List.replicate 3585 (0x12 : Byte)).length :=
  ⟨{ inked with schedule := [.load (List.replicate 3584 0x12)] }, by decide, by decide, rfl,
    by rw [List.length_replicate], by rw [List.length_replicate]; decide⟩

end Sys2Proof.Tests
end

section
/-! Proofs of the obligations about the store (spec/20_memory.md). -/

namespace Sys2Proof.Machine

/-- Writing to a canonical memory the byte that an address of the store already holds changes nothing. -/
theorem Memory.write_read_self {m : Memory} {a : Nat} (h : m.wf = true) (ha : a < Config.memSize) :
    m.write a (m.read a) = m := by
  have hwf : (m.write a (m.read a)).wf = true := Memory.wfFrom_write _ h (Nat.zero_le a) ha
  refine Memory.wfFrom_ext hwf h fun k _ => ?_
  rw [Memory.read_write h]
  by_cases hk : k = a
  · rw [if_pos hk, hk]
  · rw [if_neg hk]

/-- The same for a byte write of the machine (R61, R62). -/
theorem State.writeByte_readByte_self {s : State} (h : s.mem.wf = true) (a : Word) :
    s.writeByte a (s.readByte a) = s := by
  rw [State.writeByte_eq, State.readByte, Memory.write_read_self h (memIndex_lt a)]

/-- Writing a byte twice is writing it once: the second write puts back what the first one left there (R62). -/
theorem State.writeByte_writeByte_same {s : State} (h : s.mem.wf = true) (a : Word) (b : Byte) :
    (s.writeByte a b).writeByte a b = s.writeByte a b := by
  have hread : (s.writeByte a b).readByte a = b := by rw [State.readByte_writeByte h, if_pos rfl]
  simpa only [hread] using State.writeByte_readByte_self (State.writeByte_wf h a b) a

end Sys2Proof.Machine

namespace Sys2Proof

open Machine

/-- Settles O8: the frame is the definition's record update, the read is the law of a read after a write
(`memIndex` is the residue mod 4096 by definition), and the repeated write puts back the byte that is already there. -/
theorem byteWriteSetsThatByteOnly : Obligations.ByteWriteSetsThatByteOnly := by
  intro s a b h
  exact ⟨State.writeByte_eq s a b, fun c => State.readByte_writeByte h a c b, State.writeByte_writeByte_same h a b⟩

end Sys2Proof
end

section
/-! Proofs of the obligations about the encoding (spec/30_encoding.md). A word is put together again from its own
fields, format by format (R92), so each branch of the two-level dispatch (R96) encodes back to the word it read. -/

namespace Sys2Proof

section
variable {op : Word} {t : BitVec 4}

/-! ### The word of a format, from the fields of R91 -/

theorem wordA_of_fields (hT : fieldT op = t) : wordA t (fieldNNN op) = op := by
  apply BitVec.eq_of_toNat_eq
  rw [← hT, wordA_toNat, fieldT_toNat, fieldNNN_toNat]
  omega

theorem wordXI_of_fields {nn : Byte} (hT : fieldT op = t) (hNN : fieldNN op = nn) :
    wordXI t (fieldX op) nn = op := by
  apply BitVec.eq_of_toNat_eq
  rw [← hT, ← hNN, wordXI_toNat, fieldT_toNat, fieldX_val, fieldNN_toNat]
  omega

theorem wordXYN_of_fields {n : BitVec 4} (hT : fieldT op = t) (hN : fieldN op = n) :
    wordXYN t (fieldX op) (fieldY op) n = op := by
  apply BitVec.eq_of_toNat_eq
  rw [← hT, ← hN, wordXYN_toNat, fieldT_toNat, fieldX_val, fieldY_val, fieldN_toNat]
  omega

end

/-- `i` is a well-formed instruction with the word `op`. -/
def Instr.IsOf (i : Instr) (op : Word) : Prop := encodeWord i = op ∧ i.wellFormed = true

section
variable {op : Word} {i : Instr}

/-! ### The second level of the dispatch. Each row of a family fixes the sub-opcode that its branch has tested, so one
argument serves all of them; the last branch answers no instruction. -/

theorem decodeFamily8_isOf (hT : fieldT op = 0x8) (h : decodeFamily8 op = .ok i) : i.IsOf op := by
  unfold decodeFamily8 at h
  split at h <;> cases h
  all_goals next hN => exact ⟨wordXYN_of_fields hT hN, rfl⟩

theorem decodeFamilyE_isOf (hT : fieldT op = 0xE) (h : decodeFamilyE op = .ok i) : i.IsOf op := by
  unfold decodeFamilyE at h
  split at h <;> cases h
  all_goals next hNN => exact ⟨wordXI_of_fields hT hNN, rfl⟩

theorem decodeFamilyF_isOf (hT : fieldT op = 0xF) (h : decodeFamilyF op = .ok i) : i.IsOf op := by
  unfold decodeFamilyF at h
  split at h <;> cases h
  all_goals next hNN => exact ⟨wordXI_of_fields hT hNN, rfl⟩

/-! ### The first level, on the family nibble: the branches of each format together, then the three families that have a
second level. `split` numbers the branches from 1, so the branch of family T has the number T + 1. -/

theorem decodeWord_isOf (h : decodeWord op = .ok i) : i.IsOf op := by
  unfold decodeWord at h
  split at h
  -- family 0: the two words that stand there whole
  case h_1 =>
    split at h
    case isTrue hcls => cases h; exact ⟨hcls.symm, rfl⟩
    case isFalse =>
      split at h <;> cases h
      next hrts => exact ⟨hrts.symm, rfl⟩
  -- format A: families 1, 2, A, B
  case h_2 hT | h_3 hT | h_11 hT | h_12 hT => cases h; exact ⟨wordA_of_fields hT, rfl⟩
  -- format XI: families 3, 4, 6, 7, C
  case h_4 hT | h_5 hT | h_7 hT | h_8 hT | h_13 hT => cases h; exact ⟨wordXI_of_fields hT rfl, rfl⟩
  -- format XY with the nibble 0: families 5, 9
  case h_6 hT | h_10 hT =>
    split at h <;> cases h
    next hN => exact ⟨wordXYN_of_fields hT hN, rfl⟩
  -- format XYN: family D, whose row count is a field's value and so is below 16
  case h_14 hT =>
    cases h
    have hN : fieldN op = BitVec.ofNat 4 (fieldN op).toNat := by rw [BitVec.ofNat_toNat, BitVec.setWidth_eq]
    exact ⟨wordXYN_of_fields hT hN, decide_eq_true (fieldN op).isLt⟩
  case h_9 hT => exact decodeFamily8_isOf hT h
  case h_15 hT => exact decodeFamilyE_isOf hT h
  case h_16 hT => exact decodeFamilyF_isOf hT h
  -- no further family nibble
  case h_17 => cases h

end

/-- Settles O3: the dispatch answers an instruction only in a branch that has tested the row's fixed bits, and the
fixed bits with the operands' fields are the whole word (R92, R96). -/
theorem decodedWordEncodesBack : Obligations.DecodedWordEncodesBack := by
  intro op i h
  exact decodeWord_isOf h

end Sys2Proof
end

section
/-! Proofs of the obligations about the register instructions (spec/41_alu.md). -/

namespace Sys2Proof.Machine

/-! ### The instructions that are one write of VX (R140 to R145): the next state of each -/

section
variable (x y : Reg) (nn : Byte) (s : State)

theorem exec_mvi : exec (.mvi x nn) s = .next (s.writeV x nn) := rfl

theorem exec_adi : exec (.adi x nn) s = .next (s.writeV x (s.readV x + nn)) := rfl

theorem exec_mov : exec (.mov x y) s = .next (s.writeV x (s.readV y)) := rfl

theorem exec_or : exec (.or x y) s = .next (s.writeV x (s.readV x ||| s.readV y)) := rfl

theorem exec_and : exec (.and x y) s = .next (s.writeV x (s.readV x &&& s.readV y)) := rfl

theorem exec_xor : exec (.xor x y) s = .next (s.writeV x (s.readV x ^^^ s.readV y)) := rfl

end

end Sys2Proof.Machine

namespace Sys2Proof

open Machine

/-- Settles O34: each of the six is one write of VX, whose frame is `writesOnly_writeV`; the bytes written are the
library's sum mod 256 and bitwise operations, read as numbers. -/
theorem loadAddLogicWriteVxOnly : Obligations.LoadAddLogicWriteVxOnly := by
  intro x y nn s
  refine ⟨?mvi, ?adi, ?mov, ?or, ?and, ?xor⟩
  case mvi => exact ⟨_, exec_mvi x nn s, writesOnly_writeV s x _⟩
  case adi => exact ⟨_, _, exec_adi x nn s, writesOnly_writeV s x _, BitVec.toNat_add _ _⟩
  case mov => exact ⟨_, exec_mov x y s, writesOnly_writeV s x _⟩
  case or => exact ⟨_, _, exec_or x y s, writesOnly_writeV s x _, BitVec.toNat_or _ _⟩
  case and => exact ⟨_, _, exec_and x y s, writesOnly_writeV s x _, BitVec.toNat_and _ _⟩
  case xor => exact ⟨_, _, exec_xor x y s, writesOnly_writeV s x _, BitVec.toNat_xor _ _⟩

end Sys2Proof
end

section
/-! Proofs of the obligations about the index register and memory transfer (spec/42_index_memory.md). -/

namespace Sys2Proof.Machine

/-! ### The operand forms, read as numbers -/

theorem zextAddr_toNat (nnn : BitVec 12) : (zextAddr nnn).toNat = nnn.toNat :=
  BitVec.toNat_setWidth_of_le (by decide)

theorem sumMod4096_toNat (i : Word) (vx : Byte) : (sumMod4096 i vx).toNat = (i.toNat + vx.toNat) % 4096 := by
  have hlt : (i.toNat + vx.toNat) % 4096 < 2 ^ 16 := by omega
  exact (BitVec.toNat_ofNat _ 16).trans (Nat.mod_eq_of_lt hlt)

@[simp] theorem bcdDigits_length (b : Byte) : (bcdDigits b).length = 3 := rfl

theorem bcdDigits_hundreds (b : Byte) : ((bcdDigits b)[0]'(by simp)).toNat = b.toNat / 100 := BitVec.toNat_udiv

theorem bcdDigits_tens (b : Byte) : ((bcdDigits b)[1]'(by simp)).toNat = b.toNat / 10 % 10 :=
  BitVec.toNat_umod.trans (congrArg (· % 10) BitVec.toNat_udiv)

theorem bcdDigits_units (b : Byte) : ((bcdDigits b)[2]'(by simp)).toNat = b.toNat % 10 := BitVec.toNat_umod

/-! ### ANNN, FX1E and FX33: the next state of each -/

section
variable (nnn : BitVec 12) (x : Reg) (s : State)

theorem exec_mviI : exec (.mviI nnn) s = .next { s with i := zextAddr nnn } := rfl

theorem exec_adiI : exec (.adiI x) s = .next { s with i := sumMod4096 s.i (s.readV x) } := rfl

theorem exec_bcd : exec (.bcd x) s = .next (s.writeBytes s.i (bcdDigits (s.readV x))) := rfl

end

end Sys2Proof.Machine

namespace Sys2Proof

open Machine

/-- Settles O42: FX33 is one write of three bytes from `I` on, so its frame and what a later read returns are the laws
of `writeBytes`; the bytes written are the library's quotients and remainders, read as numbers. -/
theorem bcdStoresThreeDigits : Obligations.BcdStoresThreeDigits := by
  intro x s h
  have hread := State.readByte_writeBytes h s.i (bcdDigits (s.readV x)) (by simp)
  refine ⟨_, exec_bcd x s, State.writeBytes_frame s _ _, ?hundreds, ?tens, ?units, ?frame⟩
  case hundreds => exact (congrArg BitVec.toNat (hread 0 (by simp))).trans (bcdDigits_hundreds _)
  case tens => exact (congrArg BitVec.toNat (hread 1 (by simp))).trans (bcdDigits_tens _)
  case units => exact (congrArg BitVec.toNat (hread 2 (by simp))).trans (bcdDigits_units _)
  case frame => exact fun a ha => State.readByte_writeBytes_of_not h s.i a _ ha

/-- Settles O40: each is a record update of `I` alone, and the new `I` is the operand form read as a number. -/
theorem indexLoadAndAdd : Obligations.IndexLoadAndAdd := by
  intro nnn x s
  exact ⟨⟨_, exec_mviI nnn s, rfl, zextAddr_toNat nnn⟩,
    ⟨_, exec_adiI x s, rfl, sumMod4096_toNat s.i (s.readV x)⟩⟩

end Sys2Proof
end

section
/-! Proofs of the obligations about the display (spec/43_display.md). The non-interference of the framebuffer rests on
one law, `exec_withFb`: an instruction other than CLS and SPRITE commutes with putting another framebuffer in the state. -/

namespace Sys2Proof.Machine

/-! ### CLS and SPRITE: the outcome of each, and the cleared screen -/

theorem exec_cls (s : State) :
    exec .cls s = atDefault (!s.quirks.fbBytePerPixel) { s with fb := Vector.replicate 256 0x00, redraw := true } := rfl

theorem exec_sprite (x y : Reg) (n : Nat) (s : State) :
    exec (.sprite x y n) s = atDefault (!s.quirks.spriteWrap && !s.quirks.fbBytePerPixel)
      { s.writeV Reg.vf (flagByte (s.blit x y n).hit) with
        fb := (s.blit x y n).fb, redraw := s.redraw || (s.blit x y n).changed } := rfl

theorem Framebuffer.byte_replicate_zero (j : Nat) : Framebuffer.byte (Vector.replicate 256 0x00) j = 0 := by
  rw [Framebuffer.byte, Vector.getElem?_replicate]
  split <;> rfl

theorem Framebuffer.pixel_replicate_zero (px py : Nat) :
    Framebuffer.pixel (Vector.replicate 256 0x00) px py = false := by
  rw [Framebuffer.pixel, Framebuffer.byte_replicate_zero]
  exact BitVec.getLsbD_zero

/-- The state with another framebuffer: what the two sides of R184 differ in. -/
def State.withFb (s : State) (fb' : Framebuffer) : State := { s with fb := fb' }

/-! ### The shared operations on a state with another framebuffer -/

section
variable (s : State) (fb' : Framebuffer)

theorem atDefault_withFb {u u' : State} (ok : Bool) (h : u' = u.withFb fb') :
    atDefault ok u' = mapNext (·.withFb fb') (atDefault ok u) := by
  cases ok with
  | true => exact congrArg Host.Outcome.next h
  | false => rfl

theorem State.skipIf_withFb (taken : Bool) : (s.withFb fb').skipIf taken = (s.skipIf taken).withFb fb' := by
  cases taken <;> rfl

theorem State.storeBlock_withFb (x : Reg) : (s.withFb fb').storeBlock x = (s.storeBlock x).withFb fb' := by
  have hmem : ((s.withFb fb').storeBlock x).mem = (s.storeBlock x).mem :=
    State.storeBlock_mem_congr (s := s.withFb fb') (t := s) rfl rfl rfl x
  rw [State.storeBlock_frame, hmem, State.storeBlock_frame s]
  rfl

theorem State.loadBlock_withFb (x : Reg) : (s.withFb fb').loadBlock x = (s.loadBlock x).withFb fb' := by
  have hv : ((s.withFb fb').loadBlock x).v = (s.loadBlock x).v :=
    State.loadBlock_v_congr (s := s.withFb fb') (t := s) rfl rfl rfl x
  rw [State.loadBlock_frame, hv, State.loadBlock_frame s]
  rfl

theorem execKey_withFb (x : Reg) : execKey x (s.withFb fb') = mapNext (·.withFb fb') (execKey x s) := by
  have hkw : (s.withFb fb').kw = s.kw := rfl
  have hreleased : (s.withFb fb').released = s.released := rfl
  rw [execKey, execKey, hkw, hreleased]
  cases s.kw with
  | idle => rfl
  | waiting => cases leastKey s.released <;> rfl

/-- The framebuffer is neither read nor written by any instruction but CLS and SPRITE (R184). -/
theorem exec_withFb {i : Instr} (hi : i.mnemonic ∉ ["CLS", "SPRITE"]) :
    exec i (s.withFb fb') = mapNext (·.withFb fb') (exec i s) := by
  cases i
  case cls | sprite => exact absurd (by simp [Instr.mnemonic]) hi
  case skipEqImm | skipNeImm | skipEqReg | skipNeReg | skipKey | skipNkey =>
    exact congrArg Host.Outcome.next (State.skipIf_withFb s fb' _)
  case jump | jumpV0 | shr | shl => exact atDefault_withFb fb' _ rfl
  case storem x =>
    exact atDefault_withFb fb' _
      (congrArg (fun t : State => { t with i := s.indexAfterBlock x }) (State.storeBlock_withFb s fb' x))
  case loadm x =>
    exact atDefault_withFb fb' _
      (congrArg (fun t : State => { t with i := s.indexAfterBlock x }) (State.loadBlock_withFb s fb' x))
  case key x => exact execKey_withFb s fb' x
  all_goals rfl

end

/-! ### Who writes the framebuffer -/

section
variable {s t : State}

/-- Putting its own framebuffer back in `s` changes nothing, and by `exec_withFb` the next state has it too. -/
theorem exec_keeps_fb {i : Instr} (hi : i.mnemonic ∉ ["CLS", "SPRITE"]) (h : exec i s = .next t) : t.fb = s.fb := by
  have hown : exec i s = mapNext (·.withFb s.fb) (exec i s) := exec_withFb s s.fb hi
  rw [h] at hown
  injection hown with ht
  rw [ht]
  rfl

theorem stepInstr_writes_fb (h : s.stepInstr = .next t) (hfb : t.fb ≠ s.fb) :
    ∃ i, decodeWord s.fetchWord = .ok i ∧ i.mnemonic ∈ ["CLS", "SPRITE"] := by
  obtain ⟨i, hd, hi⟩ | ⟨e, -, rfl⟩ := State.stepInstr_cases h
  · exact ⟨i, hd, by_contra fun hm => hfb (exec_keeps_fb (s := s.advance) hm hi)⟩
  · exact absurd rfl hfb

/-- An event that changes the framebuffer is reset, or a step that a running core takes (R184, R222). -/
theorem perform_writes_fb {e : Event} (h : perform e s = .next t) (hfb : t.fb ≠ s.fb) :
    e = .reset ∨ (e = .step ∧ s.running = true ∧ s.stepInstr = .next t) := by
  cases e
  case reset => exact .inl rfl
  case step =>
    obtain ⟨hr, hstep⟩ | ⟨-, rfl⟩ := State.sequencerTurn_cases h
    · exact .inr ⟨rfl, hr, hstep⟩
    · exact absurd rfl hfb
  case load rom =>
    cases h
    exact absurd (congrArg State.fb (s.load_frame rom)) hfb
  case tick | keySet | redrawAck | quit =>
    cases h
    exact absurd rfl hfb

theorem step_writes_fb (h : step s = .next t) (hfb : t.fb ≠ s.fb) :
    s.schedule.head? = some .reset ∨
      (s.takesStep ∧ ∃ i, decodeWord s.fetchWord = .ok i ∧ i.mnemonic ∈ ["CLS", "SPRITE"]) := by
  obtain ⟨hs, hr, hstep⟩ | ⟨e, rest, hs, hp⟩ := step_cases h
  · exact .inr ⟨⟨.inl hs, s.running_iff.1 hr⟩, stepInstr_writes_fb hstep hfb⟩
  · have hhead : s.schedule.head? = some e := by rw [hs, List.head?_cons]
    obtain rfl | ⟨rfl, hr, hstep⟩ := perform_writes_fb hp hfb
    · exact .inl hhead
    · exact .inr ⟨⟨.inr hhead, s.running_iff.1 hr⟩,
        stepInstr_writes_fb (s := { s with schedule := rest }) hstep hfb⟩

end

/-! ### Who reads the framebuffer: a run of one instruction from another one -/

/-- `t'` is `t` but for the framebuffer and, after SPRITE, VF (R184). -/
def SameButDisplay (i : Instr) (t t' : State) : Prop :=
  t' = { t with v := t'.v, fb := t'.fb } ∧
    ∀ z : Reg, t'.readV z ≠ t.readV z → z = Reg.vf ∧ i.mnemonic = "SPRITE"

theorem sameButDisplay_withFb (i : Instr) (t : State) (fb' : Framebuffer) : SameButDisplay i t (t.withFb fb') :=
  ⟨rfl, fun _ hz => absurd rfl hz⟩

section
variable {s t : State} (fb' : Framebuffer)

/-- CLS leaves the same blank screen whatever was there. -/
theorem exec_cls_withFb (h : exec .cls s = .next t) : exec .cls (s.withFb fb') = .next t := h

/-- SPRITE draws the same pixels, so it sets `redraw` alike; only the pixels and the collision bit can differ. -/
theorem exec_sprite_withFb {x y : Reg} {n : Nat} (h : exec (.sprite x y n) s = .next t) :
    ∃ t', exec (.sprite x y n) (s.withFb fb') = .next t' ∧ SameButDisplay (.sprite x y n) t t' := by
  rw [exec_sprite] at h
  obtain ⟨hq, rfl⟩ := atDefault_next.1 h
  have hchanged : ((s.withFb fb').blit x y n).changed = (s.blit x y n).changed := s.blit_changed_of_fb fb' x y n
  refine ⟨_, atDefault_next.2 ⟨hq, rfl⟩, ?frame, fun z hz => ⟨?vf, rfl⟩⟩
  case frame =>
    rw [hchanged]
    rfl
  case vf =>
    by_contra hne
    exact hz ((State.readV_writeV_ne (s.withFb fb') _ hne).trans (State.readV_writeV_ne s _ hne).symm)

theorem exec_withFb_sameButDisplay {i : Instr} (h : exec i s = .next t) :
    ∃ t', exec i (s.withFb fb') = .next t' ∧ SameButDisplay i t t' := by
  by_cases hi : i.mnemonic ∈ ["CLS", "SPRITE"]
  · cases i
    case cls => exact ⟨t, exec_cls_withFb fb' h, sameButDisplay_withFb .cls t t.fb⟩
    case sprite => exact exec_sprite_withFb fb' h
    all_goals exact absurd hi (by simp [Instr.mnemonic])
  · have hexec : exec i (s.withFb fb') = .next (t.withFb fb') := by
      rw [exec_withFb s fb' hi, h]
      rfl
    exact ⟨_, hexec, sameButDisplay_withFb i t fb'⟩

end

end Sys2Proof.Machine

namespace Sys2Proof

open Machine

/-- Settles O22: the writers are read off a step's cases, and a run from another framebuffer off `exec_withFb` and the
two display instructions themselves. -/
theorem framebufferIsWrittenAndReadByDisplayOnly : Obligations.FramebufferIsWrittenAndReadByDisplayOnly :=
  ⟨fun _ _ h hfb => step_writes_fb h hfb, fun _ _ _ fb' h => exec_withFb_sameButDisplay fb' h⟩

/-- Settles O46: at the default setting CLS is one record update, and the framebuffer it puts there reads zero at every
byte and so at every pixel. -/
theorem clsZeroesTheFramebuffer : Obligations.ClsZeroesTheFramebuffer := by
  intro s hq
  have hexec : exec .cls s = .next { s with fb := Vector.replicate 256 0x00, redraw := true } := by
    rw [exec_cls, hq]
    exact atDefault_true _
  exact ⟨_, hexec, rfl, fun j _ => Framebuffer.byte_replicate_zero j,
    fun px py _ => Framebuffer.pixel_replicate_zero px py⟩

end Sys2Proof
end

section
/-! Proofs of the obligations about the timers (spec/45_timers.md). -/

namespace Sys2Proof.Machine

/-! ### FX07, FX15 and FX18: the next state of each -/

section
variable (x : Reg) (s : State)

theorem exec_getDelay : exec (.getDelay x) s = .next (s.writeV x s.dt) := rfl

theorem exec_setDelay : exec (.setDelay x) s = .next { s with dt := s.readV x } := rfl

theorem exec_setSound : exec (.setSound x) s = .next { s with st := s.readV x } := rfl

end

end Sys2Proof.Machine

namespace Sys2Proof

open Machine

/-- Settles O52: reading `DT` is one write of VX, whose frame is `writesOnly_writeV`; writing a timer is a record update
of that timer alone. -/
theorem timerInstructions : Obligations.TimerInstructions := by
  intro x s
  refine ⟨?getDelay, ?setDelay, ?setSound⟩
  case getDelay => exact ⟨_, exec_getDelay x s, writesOnly_writeV s x s.dt⟩
  case setDelay => exact ⟨_, exec_setDelay x s, rfl⟩
  case setSound => exact ⟨_, exec_setSound x s, rfl⟩

end Sys2Proof
end

section
/-! Proofs of the obligations about decoding (spec/30_encoding.md): encode then decode, and the mask and match rows of
R95. Each row's test of the word is a test of its fields (R94), which is what the dispatch tests. -/

namespace Sys2Proof

/-! ### Encode, then decode -/

/-- The family DecodeEncode, put together: one lemma for each constructor. -/
theorem decodeWord_encodeWord : ∀ i : Instr, i.wellFormed = true → decodeWord (encodeWord i) = .ok i
  | .cls => Laws.DecodeEncode.cls
  | .rts => Laws.DecodeEncode.rts
  | .jump nnn => Laws.DecodeEncode.jump nnn
  | .call nnn => Laws.DecodeEncode.call nnn
  | .skipEqImm x nn => Laws.DecodeEncode.skipEqImm x nn
  | .skipNeImm x nn => Laws.DecodeEncode.skipNeImm x nn
  | .skipEqReg x y => Laws.DecodeEncode.skipEqReg x y
  | .mvi x nn => Laws.DecodeEncode.mvi x nn
  | .adi x nn => Laws.DecodeEncode.adi x nn
  | .mov x y => Laws.DecodeEncode.mov x y
  | .or x y => Laws.DecodeEncode.or x y
  | .and x y => Laws.DecodeEncode.and x y
  | .xor x y => Laws.DecodeEncode.xor x y
  | .add x y => Laws.DecodeEncode.add x y
  | .sub x y => Laws.DecodeEncode.sub x y
  | .shr x y => Laws.DecodeEncode.shr x y
  | .subn x y => Laws.DecodeEncode.subn x y
  | .shl x y => Laws.DecodeEncode.shl x y
  | .skipNeReg x y => Laws.DecodeEncode.skipNeReg x y
  | .mviI nnn => Laws.DecodeEncode.mviI nnn
  | .jumpV0 nnn => Laws.DecodeEncode.jumpV0 nnn
  | .rnd x nn => Laws.DecodeEncode.rnd x nn
  | .sprite x y n => Laws.DecodeEncode.sprite x y n
  | .skipKey x => Laws.DecodeEncode.skipKey x
  | .skipNkey x => Laws.DecodeEncode.skipNkey x
  | .getDelay x => Laws.DecodeEncode.getDelay x
  | .key x => Laws.DecodeEncode.key x
  | .setDelay x => Laws.DecodeEncode.setDelay x
  | .setSound x => Laws.DecodeEncode.setSound x
  | .adiI x => Laws.DecodeEncode.adiI x
  | .spritechar x => Laws.DecodeEncode.spritechar x
  | .bcd x => Laws.DecodeEncode.bcd x
  | .storem x => Laws.DecodeEncode.storem x
  | .loadm x => Laws.DecodeEncode.loadm x

/-- Settles O2: the two bytes of `encode` put together again are the instruction's word, and that word decodes back by
the family DecodeEncode. -/
theorem encodedInstructionDecodesBack : Obligations.EncodedInstructionDecodesBack := by
  intro i rest hi
  rw [encode, List.cons_append, List.cons_append, List.nil_append, decode_two, wordOfBytes_extract]
  exact decodeWord_encodeWord i hi

/-- Settles O1: each word decodes by computing the dispatch on its fields. -/
theorem writtenWordsDecode : Obligations.WrittenWordsDecode := by
  refine ⟨?_, ?_, ?_, ?_, ?_, ?_, ?_, ?_, ?_, ?_, ?_, ?_, ?_, ?_, ?_, ?_, ?_, ?_, ?_, ?_⟩
  all_goals rfl

/-! ### The rows of R95 -/

theorem wordA_and (t mt : BitVec 4) (nnn mnnn : BitVec 12) :
    wordA t nnn &&& wordA mt mnnn = wordA (t &&& mt) (nnn &&& mnnn) := BitVec.and_append

theorem regBits_and_zero (x : Reg) : regBits x &&& regBits 0 = regBits 0 := BitVec.and_zero

theorem wordXI_and (t mt : BitVec 4) (x : Reg) (nn mnn : Byte) :
    wordXI t x nn &&& wordXI mt 0 mnn = wordXI (t &&& mt) 0 (nn &&& mnn) := by
  have hhigh : (t ++ regBits x) &&& (mt ++ regBits 0) = (t &&& mt) ++ regBits 0 := by
    rw [BitVec.and_append, regBits_and_zero]
  exact BitVec.and_append.trans (congrArg (· ++ (nn &&& mnn)) hhigh)

theorem wordXYN_and (t mt : BitVec 4) (x y : Reg) (n mn : BitVec 4) :
    wordXYN t x y n &&& wordXYN mt 0 0 mn = wordXYN (t &&& mt) 0 0 (n &&& mn) := by
  have hhigh : (t ++ regBits x ++ regBits y) &&& (mt ++ regBits 0 ++ regBits 0) =
      (t &&& mt) ++ regBits 0 ++ regBits 0 := by
    rw [BitVec.and_append, BitVec.and_append, regBits_and_zero, regBits_and_zero]
  exact BitVec.and_append.trans (congrArg (· ++ (n &&& mn)) hhigh)

/-- The mask of an instruction's row: ones in the fields that are no operand (R94, R95). -/
def Instr.mask : Instr → Word
  | .cls | .rts => 0xFFFF
  | .jump _ | .call _ | .mviI _ | .jumpV0 _ => wordA 0xF 0#12
  | .skipEqImm _ _ | .skipNeImm _ _ | .mvi _ _ | .adi _ _ | .rnd _ _ => wordXI 0xF 0 0#8
  | .skipEqReg _ _ | .skipNeReg _ _ | .mov _ _ | .or _ _ | .and _ _ | .xor _ _ | .add _ _ | .sub _ _ | .shr _ _
  | .subn _ _ | .shl _ _ => wordXYN 0xF 0 0 0xF
  | .sprite _ _ _ => wordXYN 0xF 0 0 0#4
  | .skipKey _ | .skipNkey _ | .getDelay _ | .key _ | .setDelay _ | .setSound _ | .adiI _ | .spritechar _ | .bcd _
  | .storem _ | .loadm _ => wordXI 0xF 0 0xFF

/-- The row of R95 that an instruction belongs to. -/
def Instr.row (i : Instr) : OpcodeRow := ⟨i.mnemonic, encodeWord i &&& i.mask, i.mask⟩

/-- The row of every instruction stands in the list: under its mask, only the fixed fields of its word are left. -/
theorem Instr.row_mem (i : Instr) : i.row ∈ opcodeRows := by
  unfold Instr.row
  cases i
  case cls | rts => decide
  case jump | call | mviI | jumpV0 =>
    rw [encodeWord, Instr.mask, Instr.mnemonic, wordA_and, BitVec.and_zero]
    decide
  case skipEqImm | skipNeImm | mvi | adi | rnd =>
    rw [encodeWord, Instr.mask, Instr.mnemonic, wordXI_and, BitVec.and_zero]
    decide
  case sprite =>
    rw [encodeWord, Instr.mask, Instr.mnemonic, wordXYN_and, BitVec.and_zero]
    decide
  case skipEqReg | skipNeReg | mov | or | and | xor | add | sub | shr | subn | shl =>
    rw [encodeWord, Instr.mask, Instr.mnemonic, wordXYN_and]
    decide
  case skipKey | skipNkey | getDelay | key | setDelay | setSound | adiI | spritechar | bcd | storem | loadm =>
    rw [encodeWord, Instr.mask, Instr.mnemonic, wordXI_and]
    decide

theorem opcodeRows_mnemonic_inj {r r' : OpcodeRow} (hr : r ∈ opcodeRows) (hr' : r' ∈ opcodeRows)
    (h : r.mnemonic = r'.mnemonic) : r = r' := by
  have hnodup : (opcodeRows.map OpcodeRow.mnemonic).Nodup := by decide
  exact List.inj_on_of_nodup_map hnodup hr hr' h

/-- A decoded word matches the row of its instruction, whose word it is. -/
theorem and_mask_of_decodeWord {op : Word} {i : Instr} (h : decodeWord op = .ok i) :
    op &&& i.row.mask = i.row.pattern := by
  obtain ⟨hop, -⟩ := decodeWord_isOf h
  rw [← hop]
  rfl

/-! ### A word that matches a row has the row's fixed fields, which are what the dispatch tests (R96) -/

section
variable {op m p : Word} (h : op &&& m = p)
include h

theorem fieldT_of_match (hm : fieldT m = BitVec.allOnes 4) : fieldT op = fieldT p := by
  have hand : fieldT (op &&& m) = fieldT op &&& fieldT m := BitVec.extractLsb'_and
  rw [← h, hand, hm, BitVec.and_allOnes]

theorem fieldN_of_match (hm : fieldN m = BitVec.allOnes 4) : fieldN op = fieldN p := by
  have hand : fieldN (op &&& m) = fieldN op &&& fieldN m := BitVec.extractLsb'_and
  rw [← h, hand, hm, BitVec.and_allOnes]

theorem fieldNN_of_match (hm : fieldNN m = BitVec.allOnes 8) : fieldNN op = fieldNN p := by
  have hand : fieldNN (op &&& m) = fieldNN op &&& fieldNN m := BitVec.extractLsb'_and
  rw [← h, hand, hm, BitVec.and_allOnes]

end

/-- Every word that matches the row decodes to the row's instruction. -/
def OpcodeRow.Decodes (r : OpcodeRow) : Prop :=
  ∀ op : Word, op &&& r.mask = r.pattern → ∃ i, decodeWord op = .ok i ∧ i.mnemonic = r.mnemonic

theorem opcodeRows_decodes : ∀ r ∈ opcodeRows, r.Decodes := by
  simp only [opcodeRows, List.cons_append, List.nil_append, List.forall_mem_cons]
  refine ⟨?cls, ?rts, ?jump, ?call, ?skipEqImm, ?skipNeImm, ?skipEqReg, ?mvi, ?adi, ?mov, ?or, ?and, ?xor, ?add, ?sub,
    ?shr, ?subn, ?shl, ?skipNeReg, ?mviI, ?jumpV0, ?rnd, ?sprite, ?skipKey, ?skipNkey, ?getDelay, ?key, ?setDelay,
    ?setSound, ?adiI, ?spritechar, ?bcd, ?storem, ?loadm, List.forall_mem_nil _⟩
  all_goals intro op h
  -- the two words that stand there whole
  case cls | rts =>
    obtain rfl : op = _ := (BitVec.and_allOnes (x := op)).symm.trans h
    exact ⟨_, rfl, rfl⟩
  -- the rows that fix the family alone
  case jump | call | skipEqImm | skipNeImm | mvi | adi | mviI | jumpV0 | rnd | sprite =>
    rw [decodeWord, fieldT_of_match h rfl]
    exact ⟨_, rfl, rfl⟩
  -- the rows that fix the family and the bottom nibble
  case skipEqReg | skipNeReg =>
    rw [decodeWord, fieldT_of_match h rfl, fieldN_of_match h rfl]
    exact ⟨_, rfl, rfl⟩
  case mov | or | and | xor | add | sub | shr | subn | shl =>
    have hfamily : decodeWord op = decodeFamily8 op := by
      rw [decodeWord, fieldT_of_match h rfl]
      rfl
    rw [hfamily, decodeFamily8, fieldN_of_match h rfl]
    exact ⟨_, rfl, rfl⟩
  -- the rows that fix the family and the bottom byte
  case skipKey | skipNkey =>
    have hfamily : decodeWord op = decodeFamilyE op := by
      rw [decodeWord, fieldT_of_match h rfl]
      rfl
    rw [hfamily, decodeFamilyE, fieldNN_of_match h rfl]
    exact ⟨_, rfl, rfl⟩
  case getDelay | key | setDelay | setSound | adiI | spritechar | bcd | storem | loadm =>
    have hfamily : decodeWord op = decodeFamilyF op := by
      rw [decodeWord, fieldT_of_match h rfl]
      rfl
    rw [hfamily, decodeFamilyF, fieldNN_of_match h rfl]
    exact ⟨_, rfl, rfl⟩

/-- Settles O4: a decoded word matches the row of its instruction, which is the row of that mnemonic; a word that
matches a row has the fields that the dispatch asks for. -/
theorem definedExactlyByMaskAndMatch : Obligations.DefinedExactlyByMaskAndMatch := by
  refine ⟨fun op r hr => ⟨?decoded, opcodeRows_decodes r hr op⟩, fun op i _ => ⟨i.row, i.row_mem, rfl⟩⟩
  case decoded =>
    rintro ⟨i, hd, hi⟩
    have hrow : i.row = r := opcodeRows_mnemonic_inj i.row_mem hr hi
    exact hrow ▸ and_mask_of_decodeWord hd

/-- The fixed bits of two rows differ where both masks look (R97). -/
def OpcodeRow.Disjoint (r r' : OpcodeRow) : Prop := r.pattern &&& r'.mask ≠ r'.pattern &&& r.mask

theorem opcodeRows_disjoint {r r' : OpcodeRow} (hr : r ∈ opcodeRows) (hr' : r' ∈ opcodeRows) (hne : r ≠ r') :
    r.Disjoint r' := by
  have hpairwise : opcodeRows.Pairwise OpcodeRow.Disjoint := by unfold OpcodeRow.Disjoint; decide
  have : Std.Symm OpcodeRow.Disjoint := ⟨fun _ _ => Ne.symm⟩
  exact hpairwise.forall hr hr' hne

/-- Settles O5: under both masks a word that matched two rows would show the fixed bits of both, and no two rows agree
there. -/
theorem atMostOneRowMatches : Obligations.AtMostOneRowMatches := by
  intro op r r' hr hr' h h'
  by_contra hne
  have hagree : r.pattern &&& r'.mask = r'.pattern &&& r.mask := by
    rw [← h, ← h', BitVec.and_assoc, BitVec.and_assoc, BitVec.and_comm r.mask]
  exact opcodeRows_disjoint hr hr' hne hagree

end Sys2Proof
end

section
/-! Proof of the obligation about the undefined words (spec/30_encoding.md section 4): each family's dispatch rejects
exactly the sub-opcodes that R99 leaves out. -/

namespace Sys2Proof

section
variable (op : Word)

/-! ### The families with a second level -/

theorem decodeFamily8_rejected_iff : decodeFamily8 op = .rejected (.undefinedWord op) ↔
    8 ≤ (fieldN op).toNat ∧ (fieldN op).toNat ≠ 0xE := by
  unfold decodeFamily8
  split
  case h_10 =>
    simp only [imp_false, true_iff] at *
    bv_omega
  all_goals next hN => simp [hN]

theorem decodeFamilyE_rejected_iff : decodeFamilyE op = .rejected (.undefinedWord op) ↔
    (fieldNN op).toNat ≠ 0x9E ∧ (fieldNN op).toNat ≠ 0xA1 := by
  unfold decodeFamilyE
  split
  case h_3 =>
    simp only [imp_false, true_iff] at *
    bv_omega
  all_goals next hNN => simp [hNN]

theorem decodeFamilyF_rejected_iff : decodeFamilyF op = .rejected (.undefinedWord op) ↔
    (fieldNN op).toNat ∉ [0x07, 0x0A, 0x15, 0x18, 0x1E, 0x29, 0x33, 0x55, 0x65] := by
  unfold decodeFamilyF
  split
  case h_10 =>
    simp only [imp_false, true_iff, List.mem_cons, List.not_mem_nil, or_false, not_or] at *
    bv_omega
  all_goals next hNN => simp [hNN]

/-- The first level, with the fields as numbers (R96, R99). -/
theorem decodeWord_rejected_iff : decodeWord op = .rejected (.undefinedWord op) ↔
    ((fieldT op).toNat = 0x0 ∧ op.toNat ≠ 0x00E0 ∧ op.toNat ≠ 0x00EE) ∨
    ((fieldT op).toNat = 0x5 ∧ (fieldN op).toNat ≠ 0) ∨
    ((fieldT op).toNat = 0x8 ∧ 8 ≤ (fieldN op).toNat ∧ (fieldN op).toNat ≠ 0xE) ∨
    ((fieldT op).toNat = 0x9 ∧ (fieldN op).toNat ≠ 0) ∨
    ((fieldT op).toNat = 0xE ∧ (fieldNN op).toNat ≠ 0x9E ∧ (fieldNN op).toNat ≠ 0xA1) ∨
    ((fieldT op).toNat = 0xF ∧ (fieldNN op).toNat ∉ [0x07, 0x0A, 0x15, 0x18, 0x1E, 0x29, 0x33, 0x55, 0x65]) := by
  unfold decodeWord
  split
  case h_1 hT =>
    simp only [hT, BitVec.toNat_eq]
    split_ifs <;> simp_all
  case h_6 hT | h_10 hT =>
    simp only [hT, BitVec.toNat_eq]
    split_ifs <;> simp_all
  case h_9 hT => simp [hT, decodeFamily8_rejected_iff]
  case h_15 hT => simp [hT, decodeFamilyE_rejected_iff]
  case h_16 hT => simp [hT, decodeFamilyF_rejected_iff]
  -- no further family nibble
  case h_17 =>
    exfalso
    simp only [imp_false] at *
    bv_omega
  all_goals next hT => simp [hT]

end

/-- Settles O6: the fields that the dispatch tests are the quotient and the remainders of the word's number (R91). -/
theorem undefinedWordsByFamily : Obligations.UndefinedWordsByFamily := by
  intro op
  have hT : (fieldT op).toNat = op.toNat / 4096 := by
    rw [fieldT_toNat]
    omega
  rw [decodeWord_rejected_iff, hT, fieldN_toNat, fieldNN_toNat]

end Sys2Proof
end

section
/-! What an instruction may do: the outcome of each instruction, and what it may write, as one record update for each
(the "written by" column of spec/10_state.md section 1). -/

namespace Sys2Proof.Machine

/-! ### The outcome of the instructions that have no such lemma yet -/

section
variable (x y : Reg) (nn : Byte) (nnn : BitVec 12) (s : State)

theorem exec_add : exec (.add x y) s = .next
    (s.writeResultThenFlag x (s.readV x + s.readV y) (carryFlag (s.readV x) (s.readV y))) := rfl

theorem exec_sub : exec (.sub x y) s = .next
    (s.writeFlagThenResult x (s.readV x - s.readV y) (noBorrowFlag (s.readV x) (s.readV y))) := rfl

theorem exec_subn : exec (.subn x y) s = .next
    (s.writeFlagThenResult x (s.readV y - s.readV x) (noBorrowFlag (s.readV y) (s.readV x))) := rfl

theorem exec_rnd : exec (.rnd x nn) s =
    .next { s.writeV x (Config.rnd8 s.draws &&& nn) with draws := s.draws + 1 } := rfl

theorem exec_rts : exec .rts s = .next { s.dropTop with pc := s.stackTop } := rfl

theorem exec_call : exec (.call nnn) s = .next { s.push s.pc with pc := zextAddr nnn } := rfl

theorem exec_spritechar : exec (.spritechar x) s = .next { s with i := glyphAddr (s.readV x) } := rfl

/-- FX0A enters a wait, resolves one, or keeps waiting (R192): `execKey_cases`, for `exec`. -/
theorem exec_key_cases :
    (s.kw = .idle ∧ exec (.key x) s = .next s.enterKeyWait) ∨
    (s.kw = .waiting ∧ ∃ k, leastKey s.released = some k ∧ exec (.key x) s = .next (s.resolveKeyWait x k)) ∨
    (s.kw = .waiting ∧ leastKey s.released = none ∧ exec (.key x) s = .next s.keepKeyWait) :=
  execKey_cases x s

end

/-! ### What each instruction may write -/

/-- `t` is `s` but for the fields that `i` writes (R20). -/
def WritesFieldsOf (i : Instr) (s t : State) : Prop :=
  match i with
  | .mvi _ _ | .adi _ _ | .mov _ _ | .or _ _ | .and _ _ | .xor _ _ | .add _ _ | .sub _ _ | .shr _ _ | .subn _ _
  | .shl _ _ | .getDelay _ => ∃ v, t = { s with v := v }
  | .skipEqImm _ _ | .skipNeImm _ _ | .skipEqReg _ _ | .skipNeReg _ _ | .skipKey _ | .skipNkey _ =>
    ∃ pc, t = { s with pc := pc }
  | .mviI _ | .adiI _ | .spritechar _ => ∃ ix, t = { s with i := ix }
  | .jump _ | .jumpV0 _ => ∃ pc b, t = { s with pc := pc, halt := s.halt || b }
  | .rts => ∃ pc, t = { s with pc := pc, sp := s.sp + 2 }
  | .call _ => ∃ pc mem, t = { s with pc := pc, sp := s.sp - 2, mem := mem }
  | .rnd _ _ => ∃ v n, t = { s with v := v, draws := n }
  | .cls => ∃ fb, t = { s with fb := fb, redraw := true }
  | .sprite _ _ _ => ∃ v fb b, t = { s with v := v, fb := fb, redraw := s.redraw || b }
  | .key _ => ∃ v pc kw p a, t = { s with v := v, pc := pc, kw := kw, kwPrev := p, kwArmed := a }
  | .setDelay _ => ∃ dt, t = { s with dt := dt }
  | .setSound _ => ∃ st, t = { s with st := st }
  | .bcd _ => ∃ mem, t = { s with mem := mem }
  | .storem _ => ∃ mem ix, t = { s with mem := mem, i := ix }
  | .loadm _ => ∃ v ix, t = { s with v := v, i := ix }

theorem exec_key_writes {x : Reg} {s t : State} (h : exec (.key x) s = .next t) : WritesFieldsOf (.key x) s t := by
  obtain ⟨-, he⟩ | ⟨-, k, -, he⟩ | ⟨-, -, he⟩ := exec_key_cases x s
  all_goals
    rw [he] at h
    cases h
    exact ⟨_, _, _, _, _, rfl⟩

theorem exec_writes {i : Instr} {s t : State} (h : exec i s = .next t) : WritesFieldsOf i s t := by
  cases i
  case mvi | adi | mov | or | and | xor | add | sub | subn | getDelay | mviI | adiI | spritechar | rts | setDelay
    | setSound =>
    cases h
    exact ⟨_, rfl⟩
  case skipEqImm | skipNeImm | skipEqReg | skipNeReg | skipKey | skipNkey =>
    cases h
    exact ⟨_, State.skipIf_eq _ _⟩
  case call | rnd =>
    cases h
    exact ⟨_, _, rfl⟩
  case bcd x =>
    cases h
    exact ⟨_, s.writeBytes_frame _ _⟩
  case shr | shl | cls =>
    obtain ⟨-, rfl⟩ := atDefault_next.1 h
    exact ⟨_, rfl⟩
  case jump | jumpV0 =>
    obtain ⟨-, rfl⟩ := atDefault_next.1 h
    exact ⟨_, _, rfl⟩
  case sprite =>
    obtain ⟨-, rfl⟩ := atDefault_next.1 h
    exact ⟨_, _, _, rfl⟩
  case storem x =>
    obtain ⟨-, rfl⟩ := atDefault_next.1 h
    exact ⟨_, _, congrArg (fun t : State => { t with i := s.indexAfterBlock x }) (s.storeBlock_frame x)⟩
  case loadm x =>
    obtain ⟨-, rfl⟩ := atDefault_next.1 h
    exact ⟨_, _, congrArg (fun t : State => { t with i := s.indexAfterBlock x }) (s.loadBlock_frame x)⟩
  case key => exact exec_key_writes h

end Sys2Proof.Machine

namespace Sys2Proof

open Machine

/-- Settles O21: each instruction's record update leaves every field alone but those of its row of the inventory. -/
theorem eachFieldHasItsWriters : Obligations.EachFieldHasItsWriters := by
  intro i s t h
  have hw := exec_writes h
  cases i
  case mvi | adi | mov | or | and | xor | add | sub | shr | subn | shl | getDelay | skipEqImm | skipNeImm | skipEqReg
    | skipNeReg | skipKey | skipNkey | mviI | adiI | spritechar | rts | setDelay | setSound | cls | bcd =>
    obtain ⟨_, rfl⟩ := hw
    simp [Instr.mnemonic, State.readByte, State.readV]
  case call | rnd | storem | loadm =>
    obtain ⟨_, _, rfl⟩ := hw
    simp [Instr.mnemonic, State.readByte, State.readV]
  case jump | jumpV0 =>
    obtain ⟨_, b, rfl⟩ := hw
    cases b <;> simp [Instr.mnemonic, State.readByte, State.readV]
  case sprite =>
    obtain ⟨_, _, b, rfl⟩ := hw
    cases b <;> simp [Instr.mnemonic, State.readByte, State.readV]
  case key =>
    obtain ⟨_, _, _, _, _, rfl⟩ := hw
    simp [Instr.mnemonic, State.readByte, State.readV]

end Sys2Proof
end

section
/-! Proofs of the obligations about the invariant and the whole machine (spec/10_state.md sections 3 and 7,
spec/60_exceptions.md). What a step can do is said once, `step_inversion`; each rule is read off its four cases. -/

namespace Sys2Proof.Machine

/-! ### What a step can do -/

/-- The state with its next event taken off the schedule, if there is one (log entry 4). -/
def State.dequeue (s : State) : State := { s with schedule := s.schedule.tail }

/-- With no event in the schedule there is nothing to take off. -/
theorem State.dequeue_of_nil {s : State} (h : s.schedule = []) : s.dequeue = s := by
  rw [State.dequeue, h, List.tail_nil, ← h]

theorem State.dequeue_of_cons {s : State} {e : Event} {rest : List Event} (h : s.schedule = e :: rest) :
    s.dequeue = { s with schedule := rest } := by
  rw [State.dequeue, h, List.tail_cons]

/-- What leads from `s` to `t`: an instruction, the exception, a step event of a stopped core, or another event. -/
inductive StepsTo (s t : State) : Prop where
  | instr (hs : s.takesStep) (i : Instr) (hd : decodeWord s.fetchWord = .ok i) (hx : exec i s.dequeue.advance = .next t)
  | undefined (hs : s.takesStep)
      (ht : t = s.dequeue.advance.raiseUnimplementedOpcode s.pc (s.readByte s.pc) (s.readByte (s.pc + 1)))
  | stopped (ht : t = s.dequeue)
  | event (e : Event) (hstep : e ≠ .step) (he : s.schedule.head? = some e) (hp : perform e s.dequeue = .next t)

theorem stepsTo_of_stepInstr {s t : State} (hs : s.takesStep) (h : s.dequeue.stepInstr = .next t) : StepsTo s t := by
  obtain ⟨i, hd, hx⟩ | ⟨-, -, ht⟩ := State.stepInstr_cases h
  · exact .instr hs i hd hx
  · exact .undefined hs ht

theorem step_inversion {s t : State} (h : step s = .next t) : StepsTo s t := by
  obtain ⟨hs, hr, hi⟩ | ⟨e, rest, hs, hp⟩ := step_cases h
  · exact stepsTo_of_stepInstr ⟨.inl hs, s.running_iff.1 hr⟩ (by rwa [State.dequeue_of_nil hs])
  · have he : s.schedule.head? = some e := by rw [hs, List.head?_cons]
    rw [← State.dequeue_of_cons hs] at hp
    by_cases hstep : e = .step
    · subst hstep
      obtain ⟨hr, hi⟩ | ⟨-, ht⟩ := State.sequencerTurn_cases hp
      · exact stepsTo_of_stepInstr ⟨.inr he, s.running_iff.1 hr⟩ hi
      · exact .stopped ht
    · exact .event e hstep he hp

/-! ### The invariant -/

section
variable {s t : State}

/-- The invariant reads memory, `sp` and the key wait only. -/
theorem State.Inv.congr (h : s.Inv) (hmem : t.mem = s.mem) (hsp : t.sp = s.sp) (hkw : t.kw = s.kw)
    (hprev : t.kwPrev = s.kwPrev) (harmed : t.kwArmed = s.kwArmed) : t.Inv where
  memCanonical := hmem ▸ h.memCanonical
  spEven := hsp ▸ h.spEven
  waitCoherent := by
    rw [State.keyWaitCoherent, hkw, hprev, harmed]
    exact h.waitCoherent

theorem State.Inv.withMem (h : s.Inv) {m : Memory} (hm : m.wf = true) : State.Inv { s with mem := m } :=
  ⟨hm, h.spEven, h.waitCoherent⟩

theorem KeyMask.has_and (m m' : KeyMask) (k : Fin 16) : (m &&& m' : KeyMask).has k = (m.has k && m'.has k) :=
  BitVec.getLsbD_and

theorem KeyMask.has_or (m m' : KeyMask) (k : Fin 16) : (m ||| m' : KeyMask).has k = (m.has k || m'.has k) :=
  BitVec.getLsbD_or

theorem KeyMask.has_not (m : KeyMask) (k : Fin 16) : (~~~m : KeyMask).has k = !m.has k := by
  simp [KeyMask.has]

/-- In a cycle that sees no release, an armed key was down and so still is; a newly armed one is down now (R192). -/
theorem State.keepKeyWait_coherent (hc : s.keyWaitCoherent) (hkw : s.kw = .waiting) (hno : leastKey s.released = none) :
    s.keepKeyWait.keyWaitCoherent := by
  intro _
  have harmed := (KeyMask.eq_zero_iff _).1 (hc hkw)
  have hreleased := leastKey_eq_none.1 hno
  refine (KeyMask.eq_zero_iff _).2 fun k => ?_
  change ((s.kwArmed ||| s.pressed : KeyMask) &&& ~~~s.keys : KeyMask).has k = false
  have hk := harmed k
  have hrk := hreleased k
  rw [KeyMask.has_and, KeyMask.has_not] at hk
  rw [State.released_has] at hrk
  rw [KeyMask.has_and, KeyMask.has_or, KeyMask.has_not, State.pressed_has]
  revert hk hrk
  cases s.kwArmed.has k <;> cases s.kwPrev.has k <;> cases s.keys.has k <;> decide

theorem exec_key_keeps_inv {x : Reg} (hs : s.Inv) (h : exec (.key x) s = .next t) : t.Inv := by
  obtain ⟨-, he⟩ | ⟨-, k, -, he⟩ | ⟨hkw, hno, he⟩ := exec_key_cases x s
  all_goals
    rw [he] at h
    cases h
  · exact ⟨hs.memCanonical, hs.spEven, fun _ => BitVec.zero_and⟩
  · exact ⟨hs.memCanonical, hs.spEven, fun hk => nomatch hk⟩
  · exact ⟨hs.memCanonical, hs.spEven, State.keepKeyWait_coherent hs.waitCoherent hkw hno⟩

theorem exec_keeps_inv {i : Instr} (hs : s.Inv) (h : exec i s = .next t) : t.Inv := by
  have hw := exec_writes h
  have hsp := hs.spEven
  cases i
  -- the stack: `sp` moves by 2
  case rts =>
    obtain ⟨_, rfl⟩ := hw
    exact ⟨hs.memCanonical, by simp only; bv_omega, hs.waitCoherent⟩
  case call =>
    cases h
    exact ⟨State.writeWord_wf hs.memCanonical _ _, by change (s.sp - 2).toNat % 2 = 0; bv_omega, hs.waitCoherent⟩
  -- the stores
  case bcd =>
    cases h
    rw [State.writeBytes_frame]
    exact hs.withMem (State.writeBytes_wf hs.memCanonical _ _)
  case storem =>
    obtain ⟨-, rfl⟩ := atDefault_next.1 h
    rw [State.storeBlock_frame]
    exact (hs.withMem (State.storeBlock_wf hs.memCanonical _)).congr rfl rfl rfl rfl rfl
  case key => exact exec_key_keeps_inv hs h
  -- the instructions that write nothing the invariant reads
  case mvi | adi | mov | or | and | xor | add | sub | shr | subn | shl | getDelay | skipEqImm | skipNeImm | skipEqReg
    | skipNeReg | skipKey | skipNkey | mviI | adiI | spritechar | setDelay | setSound | cls =>
    obtain ⟨_, rfl⟩ := hw
    exact hs.congr rfl rfl rfl rfl rfl
  case jump | jumpV0 | rnd | loadm =>
    obtain ⟨_, _, rfl⟩ := hw
    exact hs.congr rfl rfl rfl rfl rfl
  case sprite =>
    obtain ⟨_, _, _, rfl⟩ := hw
    exact hs.congr rfl rfl rfl rfl rfl

theorem State.reset_inv : State.reset.Inv := ⟨rfl, rfl, fun h => nomatch h⟩

theorem State.Inv.load (hs : s.Inv) (rom : List Byte) : (s.load rom).Inv := by
  rw [State.load_frame]
  exact hs.withMem (State.load_wf hs.memCanonical rom)

theorem perform_keeps_inv {e : Event} (hstep : e ≠ .step) (hs : s.Inv) (h : perform e s = .next t) : t.Inv := by
  cases e
  case step => exact absurd rfl hstep
  case reset =>
    cases h
    exact State.reset_inv.congr rfl rfl rfl rfl rfl
  case load rom =>
    cases h
    exact hs.load rom
  case tick | keySet | redrawAck | quit =>
    cases h
    exact hs.congr rfl rfl rfl rfl rfl

end

end Sys2Proof.Machine

namespace Sys2Proof

open Machine

/-- Settles O18: an instruction keeps the invariant, on the stack by steps of 2, in the store by the canonical form of
every write, in a key wait by its three cases; no other step writes what the invariant reads, but load and reset. -/
theorem everyStepKeepsTheInvariant : Obligations.EveryStepKeepsTheInvariant := by
  intro s t hs h
  have hd : s.dequeue.Inv := hs.congr rfl rfl rfl rfl rfl
  cases step_inversion h with
  | instr _ i _ hx => exact exec_keeps_inv (s := s.dequeue.advance) (hs.congr rfl rfl rfl rfl rfl) hx
  | undefined _ ht => exact ht ▸ hs.congr rfl rfl rfl rfl rfl
  | stopped ht => exact ht ▸ hd
  | event e hstep _ hp => exact perform_keeps_inv hstep hd hp

/-- Settles O19: the reset state by evaluation, a launch state by what a load keeps. -/
theorem resetAndLaunchMeetTheInvariant : Obligations.ResetAndLaunchMeetTheInvariant :=
  ⟨State.reset_inv, State.reset_inv.load⟩

end Sys2Proof
end

section
/-! Proofs of the obligations about the sequencer and the two stops (spec/10_state.md sections 3 and 7,
spec/60_exceptions.md sections 1 and 3). -/

namespace Sys2Proof.Machine

/-! ### What a running core fetches -/

section
variable {s : State}

/-- The word at `pc`, from the two bytes of the store it is made of (R27, R60). -/
theorem State.decode_fetched {i : Instr}
    (h : decode [s.mem.read (s.pc.toNat % 4096), s.mem.read ((s.pc.toNat + 1) % 4096)] = .ok (i, [])) :
    decodeWord s.fetchWord = .ok i := by
  rw [← memIndex_succ] at h
  exact (decode_two _ _ _ _).1 h

/-- A turn of the sequencer, named by the schedule or not, is one instruction while the core runs (R27). -/
theorem step_eq_stepInstr (hs : s.takesStep) : step s = s.dequeue.stepInstr := by
  obtain ⟨hsched, hrun⟩ := hs
  have hr : s.running = true := s.running_iff.2 hrun
  cases hq : s.schedule with
  | nil => rw [State.dequeue_of_nil hq, step_instr hq hr]
  | cons e rest =>
    obtain rfl : e = .step := by simpa [hq] using hsched
    rw [State.dequeue_of_cons hq, step_event hq]
    exact if_pos hr

theorem step_of_decoded {i : Instr} (hs : s.takesStep) (hd : decodeWord s.fetchWord = .ok i) :
    step s = exec i s.dequeue.advance := by
  rw [step_eq_stepInstr hs]
  exact State.stepInstr_ok (s := s.dequeue) hd

theorem step_of_undefined {e : DecodeError} (hs : s.takesStep) (hd : decodeWord s.fetchWord = .rejected e) :
    step s = .next (s.dequeue.advance.raiseUnimplementedOpcode s.pc (s.readByte s.pc) (s.readByte (s.pc + 1))) := by
  have hd' : decodeWord s.dequeue.fetchWord = .rejected e := hd
  rw [step_eq_stepInstr hs, State.stepInstr, hd']
  rfl

theorem takesStep_of_nil (hq : s.schedule = []) (hh : s.halt = false) (hf : s.fault = false) : s.takesStep :=
  ⟨.inl hq, hh, hf⟩

theorem takesStep_of_cons {rest : List Event} (hq : s.schedule = .step :: rest) (hh : s.halt = false)
    (hf : s.fault = false) : s.takesStep :=
  ⟨.inr (by rw [hq, List.head?_cons]), hh, hf⟩

end

/-! ### A word placed at `pc` -/

theorem State.fetchWord_placeWord {s : State} (h : s.mem.wf = true) (op : Word) : (s.placeWord op).fetchWord = op :=
  State.readWord_writeWord h s.pc op

theorem decodeWord_tableWord {n w : Nat} {i : Instr} (h : decodeTableWord n w = some i) :
    decodeWord (tableWord n w) = .ok i := by
  have hw : wordOfBytes ((tableWord n w).extractLsb' 8 8) ((tableWord n w).extractLsb' 0 8) = tableWord n w :=
    wordOfBytes_extract _
  rw [decodeTableWord, decode, hw] at h
  cases hd : decodeWord (tableWord n w) with
  | ok j => simpa [hd] using h
  | rejected e => simp [hd] at h

/-! ### The default setting of the quirk flags -/

/-- At the default setting every instruction gives a next state (R8). -/
theorem exec_total {s : State} (hq : s.quirks = Quirks.canonical) (i : Instr) : ∃ t, exec i s = .next t := by
  cases i
  case shr | shl | jump | jumpV0 | cls | sprite | storem | loadm =>
    exact ⟨_, atDefault_next.2 ⟨by rw [hq]; rfl, rfl⟩⟩
  case key x =>
    obtain ⟨-, he⟩ | ⟨-, k, -, he⟩ | ⟨-, -, he⟩ := exec_key_cases x s
    all_goals exact ⟨_, he⟩
  all_goals exact ⟨_, rfl⟩

theorem stepInstr_total {s : State} (hq : s.quirks = Quirks.canonical) : ∃ t, s.stepInstr = .next t := by
  rw [State.stepInstr]
  cases decodeWord s.fetchWord with
  | ok i => exact exec_total (s := s.advance) hq i
  | rejected e => exact ⟨_, rfl⟩

theorem perform_total {s : State} (hq : s.quirks = Quirks.canonical) (e : Event) : ∃ t, perform e s = .next t := by
  cases e
  case step =>
    change ∃ t, s.sequencerTurn = .next t
    rw [State.sequencerTurn]
    cases s.running with
    | true => exact stepInstr_total hq
    | false => exact ⟨s, rfl⟩
  all_goals exact ⟨_, rfl⟩

/-! ### What an instruction leaves alone, and when it halts -/

section
variable {i : Instr} {s t : State}

theorem exec_quirks (h : exec i s = .next t) : t.quirks = s.quirks := by
  obtain ⟨-, -, -, -, -, -, -, -, -, -, -, -, -, -, -, -, -, hquirks, -⟩ := eachFieldHasItsWriters i s t h
  exact hquirks

theorem perform_quirks {e : Event} (hstep : e ≠ .step) (h : perform e s = .next t) : t.quirks = s.quirks := by
  cases e
  case step => exact absurd rfl hstep
  case load rom =>
    cases h
    rw [State.load_frame]
  case tick | keySet | redrawAck | quit | reset =>
    cases h
    rfl

/-- An instruction that halts a core that was not halted is a jump (R121, R127). -/
theorem exec_halts (h : exec i s = .next t) (hs : s.halt = false) (ht : t.halt = true) :
    (∃ nnn, i = .jump nnn ∨ i = .jumpV0 nnn) ∧ t.pc = s.instrAddr := by
  have hne : t.halt ≠ s.halt := by rw [hs, ht]; decide
  obtain ⟨-, -, -, -, -, -, -, -, -, hhalt, -⟩ := eachFieldHasItsWriters i s t h
  obtain ⟨-, hi⟩ := hhalt hne
  cases i
  case jump nnn =>
    obtain ⟨-, rfl⟩ := atDefault_next.1 h
    exact ⟨⟨nnn, .inl rfl⟩, ((s.jumpTo_halt _).1 ht).resolve_left (by simp [hs])⟩
  case jumpV0 nnn =>
    obtain ⟨-, rfl⟩ := atDefault_next.1 h
    exact ⟨⟨nnn, .inr rfl⟩, ((s.jumpTo_halt _).1 ht).resolve_left (by simp [hs])⟩
  all_goals exact absurd hi (by simp [Instr.mnemonic])

/-- Of the other events only quit sets `halt` (R227). -/
theorem perform_halts {e : Event} (hstep : e ≠ .step) (h : perform e s = .next t) (hs : s.halt = false)
    (ht : t.halt = true) : e = .quit := by
  cases e
  case quit => rfl
  case step => exact absurd rfl hstep
  case reset =>
    cases h
    cases ht
  case load rom =>
    cases h
    rw [State.load_frame] at ht
    exact absurd ht (by simp [hs])
  case tick | keySet | redrawAck =>
    cases h
    exact absurd (hs.symm.trans ht) (by decide)

/-- The events other than a step and reset clear neither `halt` nor the latch (R213, R221). -/
theorem perform_keeps_stops {e : Event} (hstep : e ≠ .step) (hreset : e ≠ .reset) (h : perform e s = .next t) :
    (s.halt = true → t.halt = true) ∧
    (s.fault = true → t.fault = true ∧ t.faultAddr = s.faultAddr ∧ t.faultB0 = s.faultB0 ∧ t.faultB1 = s.faultB1) := by
  cases e
  case step => exact absurd rfl hstep
  case reset => exact absurd rfl hreset
  case load rom =>
    cases h
    rw [State.load_frame]
    exact ⟨id, fun hf => ⟨hf, rfl, rfl, rfl⟩⟩
  case quit =>
    cases h
    exact ⟨fun _ => rfl, fun hf => ⟨hf, rfl, rfl, rfl⟩⟩
  case tick | keySet | redrawAck =>
    cases h
    exact ⟨id, fun hf => ⟨hf, rfl, rfl, rfl⟩⟩

end

end Sys2Proof.Machine

namespace Sys2Proof

open Machine

/-- Settles O11: a step that the core may take runs the decoded instruction on the advanced state, whichever way the
schedule asks for it. -/
theorem stepRunsTheDecodedInstruction : Obligations.StepRunsTheDecodedInstruction := by
  refine ⟨fun s i hq hh hf h => ?_, fun s i rest hq hh hf h => ?_⟩
  · rw [step_of_decoded (takesStep_of_nil hq hh hf) (State.decode_fetched h), State.dequeue_of_nil hq, State.advance_eq]
  · rw [step_of_decoded (takesStep_of_cons hq hh hf) (State.decode_fetched h), State.dequeue_of_cons hq,
      State.advance_eq]

/-- Settles O12: the same for a word that does not decode, whose step is the raising of the exception. -/
theorem undefinedWordLatchesTheReport : Obligations.UndefinedWordLatchesTheReport := by
  intro s e hh hf hd
  refine ⟨fun hq => ?_, fun rest hq => ?_⟩
  · rw [step_of_undefined (takesStep_of_nil hq hh hf) hd, State.dequeue_of_nil hq, ← memIndex_succ]
    rfl
  · rw [step_of_undefined (takesStep_of_cons hq hh hf) hd, State.dequeue_of_cons hq, ← memIndex_succ]
    rfl

/-- Settles O13: a core with `halt` or `fault` set is not running, which is what the sequencer tests. -/
theorem stoppedCoreIssuesNoStep : Obligations.StoppedCoreIssuesNoStep := by
  intro s hstop
  have hr : s.running = false := by
    rw [Bool.eq_false_iff, ne_eq, State.running_iff]
    rcases hstop with h | h <;> simp [h]
  refine ⟨fun rest hq => ?_, fun hq hf => ?_, fun hq hf => ?_⟩
  · rw [step_event hq]
    exact if_neg (by simpa [State.running] using hr)
  · rw [step, hq, hr]
    simp [State.stopReason, hf]
  · rw [step, hq, hr]
    simp [State.stopReason, hf]

/-- Settles O14: an instruction and the exception need a core that is neither halted nor faulted; the other steps leave
both as they are, but for reset. -/
theorem onlyResetClearsHaltAndFault : Obligations.OnlyResetClearsHaltAndFault := by
  intro s t h hreset
  cases step_inversion h with
  | instr hs | undefined hs =>
    obtain ⟨-, hh, hf⟩ := hs
    exact ⟨fun hc => absurd hc (by simp [hh]), fun hc => absurd hc (by simp [hf])⟩
  | stopped ht => exact ht ▸ ⟨id, fun hf => ⟨hf, rfl, rfl, rfl⟩⟩
  | event e hstep he hp =>
    exact perform_keeps_stops (s := s.dequeue) hstep (fun hc => hreset (hc ▸ he)) hp

/-- Settles O15: at the default setting an instruction, a fault and every event give a next state. -/
theorem runningCoreIsNeverStuck : Obligations.RunningCoreIsNeverStuck := by
  intro s hq hrun
  cases hs : s.schedule with
  | nil =>
    have hr : s.running = true := s.running_iff.2 (hrun.resolve_right (not_not_intro hs))
    exact step_instr hs hr ▸ stepInstr_total hq
  | cons e rest => exact step_event hs ▸ perform_total (s := { s with schedule := rest }) hq e

/-- Settles O16: of the instructions a jump to itself alone sets `halt`, and its target is the fetched `pc`; of the
events quit alone. -/
theorem onlySelfJumpOrQuitHalts : Obligations.OnlySelfJumpOrQuitHalts := by
  intro s t h hs ht
  cases step_inversion h with
  | instr htake i hd hx =>
    obtain ⟨⟨nnn, hi⟩, hpc⟩ := exec_halts (s := s.dequeue.advance) hx hs ht
    rw [State.instrAddr_advance] at hpc
    refine .inr ⟨htake, hpc, nnn, ?_⟩
    obtain rfl | rfl := hi
    · exact .inl hd
    · exact .inr hd
  | undefined _ ht' | stopped ht' =>
    subst ht'
    exact absurd (hs.symm.trans ht) (by decide)
  | event e hstep he hp =>
    have hquit : e = .quit := perform_halts (s := s.dequeue) hstep hp hs ht
    exact .inl (hquit ▸ he)

/-- Settles O17: the placed word is read back by the next fetch, and the core that `withFetchWord` leaves runs. -/
theorem withFetchWordRunsTheTableWord : Obligations.WithFetchWordRunsTheTableWord := by
  intro s w i hwf h
  have hfetch : (s.withFetchWord 16 w).fetchWord = tableWord 16 w := State.fetchWord_placeWord hwf _
  have hd : decodeWord (s.withFetchWord 16 w).fetchWord = .ok i := hfetch ▸ decodeWord_tableWord h
  exact ⟨step_of_decoded (takesStep_of_nil rfl rfl rfl) hd, rfl⟩

/-- Settles O20: no instruction writes the flags, and no event does, reset included. -/
theorem quirkFlagsAreConstant : Obligations.QuirkFlagsAreConstant := by
  refine ⟨rfl, fun s t h => ?_⟩
  cases step_inversion h with
  | instr _ i _ hx => exact exec_quirks (s := s.dequeue.advance) hx
  | undefined _ ht | stopped ht => exact ht ▸ rfl
  | event e hstep _ hp => exact perform_quirks (s := s.dequeue) hstep hp

end Sys2Proof
end

section
/-! Proofs of the obligations about what the instructions do not read (spec/10_state.md sections 3, 4, 6, 7 and 8,
spec/45_timers.md). They rest on one law, `exec_mapSide`: an instruction that names none of the side fields commutes
with any change of them. Each obligation is one such change, and looks at the instructions that do name a side field. -/

namespace Sys2Proof.Machine

/-! ### The side fields and their changes -/

/-- The fields of the state that only few instructions name. -/
structure Side where
  sp : Word
  dt : Byte
  st : Byte
  redraw : Bool
  halt : Bool
  fault : Bool
  faultAddr : Word
  faultB0 : Byte
  faultB1 : Byte
  kw : KeyWait
  kwPrev : KeyMask
  kwArmed : KeyMask

def State.side (s : State) : Side where
  sp := s.sp
  dt := s.dt
  st := s.st
  redraw := s.redraw
  halt := s.halt
  fault := s.fault
  faultAddr := s.faultAddr
  faultB0 := s.faultB0
  faultB1 := s.faultB1
  kw := s.kw
  kwPrev := s.kwPrev
  kwArmed := s.kwArmed

/-- The state with its side fields changed by `g`. -/
def State.mapSide (g : Side → Side) (s : State) : State :=
  { s with
    sp := (g s.side).sp, dt := (g s.side).dt, st := (g s.side).st, redraw := (g s.side).redraw,
    halt := (g s.side).halt, fault := (g s.side).fault, faultAddr := (g s.side).faultAddr,
    faultB0 := (g s.side).faultB0, faultB1 := (g s.side).faultB1, kw := (g s.side).kw,
    kwPrev := (g s.side).kwPrev, kwArmed := (g s.side).kwArmed }

/-- The instructions that name a side field. -/
def sideInstrs : List String :=
  ["CALL", "RTS", "GET_DELAY", "SET_DELAY", "SET_SOUND", "CLS", "SPRITE", "JUMP", "JUMP_V0", "KEY"]

section
variable (g : Side → Side) (s : State)

theorem atDefault_mapSide {u u' : State} (ok : Bool) (h : u' = u.mapSide g) :
    atDefault ok u' = mapNext (State.mapSide g) (atDefault ok u) := by
  cases ok with
  | true => exact congrArg Host.Outcome.next h
  | false => rfl

theorem State.skipIf_mapSide (taken : Bool) : (s.mapSide g).skipIf taken = (s.skipIf taken).mapSide g := by
  cases taken <;> rfl

theorem State.writeBytes_mapSide (a : Word) (bs : List Byte) :
    (s.mapSide g).writeBytes a bs = (s.writeBytes a bs).mapSide g := by
  have hmem : ((s.mapSide g).writeBytes a bs).mem = (s.writeBytes a bs).mem :=
    State.writeBytes_mem_congr (s := s.mapSide g) (t := s) rfl a bs
  rw [State.writeBytes_frame, hmem, State.writeBytes_frame s]
  rfl

theorem State.storeBlock_mapSide (x : Reg) : (s.mapSide g).storeBlock x = (s.storeBlock x).mapSide g := by
  have hmem : ((s.mapSide g).storeBlock x).mem = (s.storeBlock x).mem :=
    State.storeBlock_mem_congr (s := s.mapSide g) (t := s) rfl rfl rfl x
  rw [State.storeBlock_frame, hmem, State.storeBlock_frame s]
  rfl

theorem State.loadBlock_mapSide (x : Reg) : (s.mapSide g).loadBlock x = (s.loadBlock x).mapSide g := by
  have hv : ((s.mapSide g).loadBlock x).v = (s.loadBlock x).v :=
    State.loadBlock_v_congr (s := s.mapSide g) (t := s) rfl rfl rfl x
  rw [State.loadBlock_frame, hv, State.loadBlock_frame s]
  rfl

/-- An instruction that names no side field does the same whatever they hold, and leaves them alone. -/
theorem exec_mapSide {i : Instr} (hi : i.mnemonic ∉ sideInstrs) :
    exec i (s.mapSide g) = mapNext (State.mapSide g) (exec i s) := by
  cases i
  case call | rts | getDelay | setDelay | setSound | cls | sprite | jump | jumpV0 | key =>
    exact absurd (by simp [sideInstrs, Instr.mnemonic]) hi
  case skipEqImm | skipNeImm | skipEqReg | skipNeReg | skipKey | skipNkey =>
    exact congrArg Host.Outcome.next (State.skipIf_mapSide g s _)
  case shr | shl => exact atDefault_mapSide g _ rfl
  case bcd => exact congrArg Host.Outcome.next (State.writeBytes_mapSide g s _ _)
  case storem x =>
    exact atDefault_mapSide g _
      (congrArg (fun t : State => { t with i := s.indexAfterBlock x }) (State.storeBlock_mapSide g s x))
  case loadm x =>
    exact atDefault_mapSide g _
      (congrArg (fun t : State => { t with i := s.indexAfterBlock x }) (State.loadBlock_mapSide g s x))
  all_goals rfl

end

/-- `g` neither reads nor writes the key wait. -/
def Side.KeepsKeyWait (g : Side → Side) : Prop :=
  ∀ (c : Side) (k : KeyWait) (p a : KeyMask),
    g { c with kw := k, kwPrev := p, kwArmed := a } = { g c with kw := k, kwPrev := p, kwArmed := a }

section
variable {g : Side → Side} (hg : Side.KeepsKeyWait g) (s : State)
include hg

theorem State.mapSide_keyWait (k : KeyWait) (p a : KeyMask) :
    State.mapSide g { s with kw := k, kwPrev := p, kwArmed := a } =
      { s.mapSide g with kw := k, kwPrev := p, kwArmed := a } := by
  have hside : State.side { s with kw := k, kwPrev := p, kwArmed := a } =
      { s.side with kw := k, kwPrev := p, kwArmed := a } := rfl
  rw [State.mapSide, hside, hg]
  rfl

theorem State.mapSide_own :
    s.mapSide g = { s.mapSide g with kw := s.kw, kwPrev := s.kwPrev, kwArmed := s.kwArmed } :=
  State.mapSide_keyWait hg s s.kw s.kwPrev s.kwArmed

theorem State.enterKeyWait_mapSide : (s.mapSide g).enterKeyWait = s.enterKeyWait.mapSide g :=
  (State.mapSide_keyWait hg { s with pc := s.pc - 2 } .waiting s.keys 0).symm

theorem State.keepKeyWait_mapSide : (s.mapSide g).keepKeyWait = s.keepKeyWait.mapSide g :=
  (congrArg State.keepKeyWait (State.mapSide_own hg s)).trans
    (State.mapSide_keyWait hg { s with pc := s.pc - 2 } s.kw s.keys (s.kwArmed ||| s.pressed)).symm

theorem State.resolveKeyWait_mapSide (x : Reg) (k : Fin 16) :
    (s.mapSide g).resolveKeyWait x k = (s.resolveKeyWait x k).mapSide g :=
  (congrArg (fun t => State.resolveKeyWait t x k) (State.mapSide_own hg s)).trans
    (State.mapSide_keyWait hg (s.writeV x (BitVec.ofNat 8 k.val)) .idle s.kwPrev s.kwArmed).symm

/-- FX0A names no side field but the key wait. -/
theorem exec_key_mapSide (x : Reg) :
    exec (.key x) (s.mapSide g) = mapNext (State.mapSide g) (exec (.key x) s) := by
  have hkw : (s.mapSide g).kw = s.kw := (congrArg State.kw (State.mapSide_own hg s)).trans rfl
  have hreleased : (s.mapSide g).released = s.released :=
    (congrArg State.released (State.mapSide_own hg s)).trans rfl
  change execKey x (s.mapSide g) = mapNext (State.mapSide g) (execKey x s)
  rw [execKey, execKey, hkw, hreleased]
  cases s.kw with
  | idle => exact congrArg Host.Outcome.next (State.enterKeyWait_mapSide hg s)
  | waiting =>
    cases leastKey s.released with
    | none => exact congrArg Host.Outcome.next (State.keepKeyWait_mapSide hg s)
    | some k => exact congrArg Host.Outcome.next (State.resolveKeyWait_mapSide hg s x k)

end

/-! ### The flags that CLS, SPRITE, JUMP and JUMP_V0 set -/

/-- Other values in `redraw`, `halt` and the latch. -/
def Side.withHostFlags (r h f : Bool) (a : Word) (b0 b1 : Byte) (c : Side) : Side :=
  { c with redraw := r, halt := h, fault := f, faultAddr := a, faultB0 := b0, faultB1 := b1 }

/-- From other values in `redraw`, `halt` and the latch `i` comes to `t` too, but that the first two are set where
`setsRedraw` and `setsHalt` say so and left alone where not. -/
def SetsHostFlags (i : Instr) (s t : State) (setsRedraw setsHalt : Bool) : Prop :=
  ∀ (r h f : Bool) (a : Word) (b0 b1 : Byte),
    exec i (s.mapSide (Side.withHostFlags r h f a b0 b1)) =
      .next (t.mapSide (Side.withHostFlags (r || setsRedraw) (h || setsHalt) f a b0 b1))

section
variable {i : Instr} {s t : State}

/-- An instruction that commutes with the change sets neither flag. -/
theorem setsHostFlags_of_mapSide (h : exec i s = .next t)
    (hg : ∀ r h f a b0 b1, exec i (s.mapSide (Side.withHostFlags r h f a b0 b1)) =
      mapNext (State.mapSide (Side.withHostFlags r h f a b0 b1)) (exec i s)) :
    SetsHostFlags i s t false false := by
  intro r hl f a b0 b1
  rw [hg, h, Bool.or_false, Bool.or_false]
  rfl

theorem exec_setsHostFlags (h : exec i s = .next t) :
    ∃ setsRedraw setsHalt, SetsHostFlags i s t setsRedraw setsHalt := by
  cases i
  case cls =>
    obtain ⟨hq, rfl⟩ := atDefault_next.1 h
    refine ⟨true, false, fun r hl f a b0 b1 => atDefault_next.2 ⟨hq, ?_⟩⟩
    rw [Bool.or_true, Bool.or_false]
    rfl
  case sprite x y n =>
    obtain ⟨hq, rfl⟩ := atDefault_next.1 h
    refine ⟨(s.blit x y n).changed, false, fun r hl f a b0 b1 => atDefault_next.2 ⟨hq, ?_⟩⟩
    rw [Bool.or_false]
    rfl
  case jump nnn =>
    obtain ⟨hq, rfl⟩ := atDefault_next.1 h
    refine ⟨false, decide (zextAddr nnn = s.instrAddr), fun r hl f a b0 b1 => atDefault_next.2 ⟨hq, ?_⟩⟩
    rw [Bool.or_false]
    rfl
  case jumpV0 nnn =>
    obtain ⟨hq, rfl⟩ := atDefault_next.1 h
    refine ⟨false, decide (zextAddr nnn + zextByte (s.readV Reg.v0) = s.instrAddr),
      fun r hl f a b0 b1 => atDefault_next.2 ⟨hq, ?_⟩⟩
    rw [Bool.or_false]
    rfl
  case key x =>
    exact ⟨false, false, setsHostFlags_of_mapSide h fun r hl f a b0 b1 =>
      exec_key_mapSide (fun _ _ _ _ => rfl) s x⟩
  case call | rts | getDelay | setDelay | setSound =>
    exact ⟨false, false, setsHostFlags_of_mapSide h fun r hl f a b0 b1 => rfl⟩
  all_goals
    exact ⟨false, false, setsHostFlags_of_mapSide h fun r hl f a b0 b1 =>
      exec_mapSide _ s (by simp [sideInstrs, Instr.mnemonic])⟩

end

end Sys2Proof.Machine

namespace Sys2Proof

open Machine

/-- Settles O23: the other instructions that name a side field name none of the key wait's. -/
theorem onlyKeyReadsAndWritesTheKeyWait : Obligations.OnlyKeyReadsAndWritesTheKeyWait := by
  refine ⟨rfl, fun i s k p a hi => ?_⟩
  change exec i (s.mapSide fun c => { c with kw := k, kwPrev := p, kwArmed := a }) =
    mapNext (State.mapSide fun c => { c with kw := k, kwPrev := p, kwArmed := a }) (exec i s)
  cases i
  case key => exact absurd rfl hi
  case call | rts | getDelay | setDelay | setSound => rfl
  case cls | sprite | jump | jumpV0 => exact atDefault_mapSide _ _ rfl
  all_goals exact exec_mapSide _ s (by simp [sideInstrs, Instr.mnemonic])

/-- Settles O24: of the instructions that name a side field only the two excepted ones name `sp`. -/
theorem onlyCallAndRtsUseTheStackPointer : Obligations.OnlyCallAndRtsUseTheStackPointer := by
  intro i s w hi
  change exec i (s.mapSide fun c => { c with sp := w }) = mapNext (State.mapSide fun c => { c with sp := w }) (exec i s)
  cases i
  case call | rts => exact absurd (by simp [Instr.mnemonic]) hi
  case key x => exact exec_key_mapSide (fun _ _ _ _ => rfl) s x
  case getDelay | setDelay | setSound => rfl
  case cls | sprite | jump | jumpV0 => exact atDefault_mapSide _ _ rfl
  all_goals exact exec_mapSide _ s (by simp [sideInstrs, Instr.mnemonic])

/-- Settles O25: `ST` is named by SET_SOUND alone, which overwrites it; `redraw` and `halt` are only ever set, and the
latch is not named. -/
theorem soundTimerAndHostFlagsAreNotRead : Obligations.SoundTimerAndHostFlagsAreNotRead := by
  refine ⟨fun i s b hi => ?_, fun _ _ _ => rfl, fun i s t h => exec_setsHostFlags h⟩
  change exec i (s.mapSide fun c => { c with st := b }) = mapNext (State.mapSide fun c => { c with st := b }) (exec i s)
  cases i
  case setSound => exact absurd rfl hi
  case key x => exact exec_key_mapSide (fun _ _ _ _ => rfl) s x
  case call | rts | getDelay | setDelay => rfl
  case cls | sprite | jump | jumpV0 => exact atDefault_mapSide _ _ rfl
  all_goals exact exec_mapSide _ s (by simp [sideInstrs, Instr.mnemonic])

/-- Settles O26: a tick is a change of the two timers, which only the three excepted instructions name. -/
theorem ticksCommuteWithOtherInstructions : Obligations.TicksCommuteWithOtherInstructions := by
  intro i s hi
  change exec i (s.mapSide fun c => { c with dt := countDown c.dt, st := countDown c.st }) =
    mapNext (State.mapSide fun c => { c with dt := countDown c.dt, st := countDown c.st }) (exec i s)
  cases i
  case getDelay | setDelay | setSound => exact absurd (by simp [Instr.mnemonic]) hi
  case key x => exact exec_key_mapSide (fun _ _ _ _ => rfl) s x
  case call | rts => rfl
  case cls | sprite | jump | jumpV0 => exact atDefault_mapSide _ _ rfl
  all_goals exact exec_mapSide _ s (by simp [sideInstrs, Instr.mnemonic])

end Sys2Proof
end

section
/-! Proofs of the obligations about the store's addresses, words and form (spec/20_memory.md, spec/10_state.md
section 5). -/

namespace Sys2Proof.Machine

/-- The two bytes of a word have different addresses (R63). -/
theorem memIndex_ne_succ (a : Word) : memIndex a ≠ memIndex (a + 1) := by
  rw [memIndex_succ]
  simp only [memIndex, Config.memSize]
  omega

theorem highByte_toNat (w : Word) : (w.extractLsb' 8 8).toNat = w.toNat / 256 := by
  rw [BitVec.extractLsb'_toNat, Nat.shiftRight_eq_div_pow]
  omega

theorem lowByte_toNat (w : Word) : (w.extractLsb' 0 8).toNat = w.toNat % 256 := by
  rw [BitVec.extractLsb'_toNat, Nat.shiftRight_zero]

theorem State.readByte_congr_index (s : State) {a c : Word} (h : memIndex a = memIndex c) :
    s.readByte a = s.readByte c := congrArg s.mem.read h

theorem State.writeByte_congr_index (s : State) {a c : Word} (b : Byte) (h : memIndex a = memIndex c) :
    s.writeByte a b = s.writeByte c b := by
  rw [State.writeByte_eq, State.writeByte_eq, h]

/-- A canonical memory lists no address beyond the store. -/
theorem Memory.read_of_memSize_le {lo a : Nat} {m : Memory} (h : m.wfFrom lo = true) (ha : Config.memSize ≤ a) :
    m.read a = Memory.unlisted a := by
  induction m generalizing lo with
  | nil => rfl
  | cons c m ih =>
    simp only [Memory.wfFrom, Bool.and_eq_true, decide_eq_true_eq] at h
    obtain ⟨⟨⟨-, hlt⟩, -⟩, hm⟩ := h
    rw [Memory.read, if_neg (Nat.ne_of_lt (Nat.lt_of_lt_of_le hlt ha))]
    exact ih hm

end Sys2Proof.Machine

namespace Sys2Proof

open Machine

/-- Settles O7: the two addresses have one index in the store, and a byte access names its address by that alone. -/
theorem addressesAreMaskedAtTheStore : Obligations.AddressesAreMaskedAtTheStore := by
  intro s a c b h
  have hidx : memIndex a = memIndex c := (memIndex_eq_iff a c).2 h
  exact ⟨s.readByte_congr_index hidx, s.writeByte_congr_index b hidx, rfl, rfl, rfl⟩

/-- Settles O9: the bytes and the frame are the law of a byte read after a word write, at two different indices. -/
theorem storedWordIsBigEndian : Obligations.StoredWordIsBigEndian := by
  intro s a w h
  refine ⟨?high, ?low, State.readWord_writeWord h a w, ?frame⟩
  case high => rw [State.readByte_writeWord h, if_neg (memIndex_ne_succ a), if_pos rfl, highByte_toNat]
  case low => rw [State.readByte_writeWord h, if_pos rfl, lowByte_toNat]
  case frame =>
    intro c hhigh hlow
    have hhigh' : memIndex c ≠ memIndex a := hhigh
    have hlow' : memIndex c ≠ memIndex (a + 1) := memIndex_succ a ▸ hlow
    rw [State.readByte_writeWord h, if_neg hlow', if_neg hhigh']

/-- Settles O10: beyond the store both memories read as unlisted, so they read the same everywhere. -/
theorem canonicalMemoriesThatReadAlikeAreEqual : Obligations.CanonicalMemoriesThatReadAlikeAreEqual := by
  intro m m' h h' hr
  refine Memory.wfFrom_ext h h' fun a _ => ?_
  by_cases ha : a < 4096
  · exact hr a ha
  · rw [Memory.read_of_memSize_le h (Nat.le_of_not_lt ha), Memory.read_of_memSize_le h' (Nat.le_of_not_lt ha)]

end Sys2Proof
end

section
/-! Proofs of the obligations about control transfer and the key tests (spec/40_control_flow.md, spec/44_keypad.md R190
and R191). The six skip instructions are one law, `exec_skip`. -/

namespace Sys2Proof.Machine

/-! ### The stack -/

/-- A word read, as a number (R63). -/
theorem State.readWord_toNat (s : State) (a : Word) :
    (s.readWord a).toNat = 256 * (s.readByte a).toNat + (s.readByte (a + 1)).toNat := by
  have happend : (s.readWord a).toNat = (s.readByte a).toNat <<< 8 ||| (s.readByte (a + 1)).toNat :=
    BitVec.toNat_append _ _
  rw [happend, ← Nat.shiftLeft_add_eq_or_of_lt (BitVec.isLt _), Nat.shiftLeft_eq, Nat.mul_comm]

theorem State.stackTop_congr {s t : State} (hmem : s.mem = t.mem) (hsp : s.sp = t.sp) : s.stackTop = t.stackTop := by
  rw [State.stackTop, State.stackTop, State.readWord, State.readWord, hsp, State.readByte_congr hmem,
    State.readByte_congr hmem]

/-! ### Jumps -/

theorem State.instrAddr_of_pc {s : State} {a : Word} (h : s.pc = a + 2) : s.instrAddr = a := by
  rw [State.instrAddr, h, BitVec.add_sub_cancel]

/-- `halt` after a jump, with the target as a number (R121, R127). -/
theorem State.jumpTo_halt_toNat {s : State} {a : Word} (h : s.pc = a + 2) (target : Word) :
    (s.jumpTo target).halt = true ↔ s.halt = true ∨ target.toNat = a.toNat := by
  rw [State.jumpTo_halt, State.instrAddr_of_pc h, BitVec.toNat_inj]

theorem zextByte_toNat (b : Byte) : (zextByte b).toNat = b.toNat := BitVec.toNat_setWidth_of_le (by decide)

/-- NNN + V0 does not reach 65536, so the sum does not wrap (R127). -/
theorem jumpV0Target_toNat (nnn : BitVec 12) (b : Byte) :
    (zextAddr nnn + zextByte b).toNat = nnn.toNat + b.toNat := by
  rw [BitVec.toNat_add, zextAddr_toNat, zextByte_toNat]
  omega

section
variable (nnn : BitVec 12) {s : State} (h : s.quirks.selfJumpHalt = true)
include h

theorem exec_jump_default : exec (.jump nnn) s = .next (s.jumpTo (zextAddr nnn)) := atDefault_next.2 ⟨h, rfl⟩

theorem exec_jumpV0_default : exec (.jumpV0 nnn) s = .next (s.jumpTo (zextAddr nnn + zextByte (s.readV Reg.v0))) :=
  atDefault_next.2 ⟨h, rfl⟩

end

/-! ### Skips -/

theorem KeyMask.has_keyIndex (m : KeyMask) (b : Byte) : m.has (keyIndex b) = m.getLsbD (b.toNat % 16) := by
  rw [KeyMask.has, keyIndex_val]

/-- A skip instruction is taken exactly on the condition that its rule gives (R123 to R126, R190, R191). -/
theorem exec_skip {i : Instr} {s : State} {c : Bool} (h : skipCondition i s = some c) :
    exec i s = .next (s.skipIf c) := by
  cases i
  case skipEqImm | skipEqReg =>
    obtain rfl := Option.some.inj h
    rfl
  case skipNeImm | skipNeReg =>
    obtain rfl := Option.some.inj h
    exact congrArg (fun c => Host.Outcome.next (s.skipIf c)) (decide_not (p := _ = _)).symm
  case skipKey | skipNkey =>
    obtain rfl := Option.some.inj h
    rw [← KeyMask.has_keyIndex]
    rfl
  all_goals cases h

theorem State.skipIf_frame (s : State) (taken : Bool) : s.skipIf taken = { s with pc := (s.skipIf taken).pc } := by
  rw [State.skipIf_eq]

theorem State.skipIf_pc_toNat (s : State) (taken : Bool) :
    (s.skipIf taken).pc.toNat = if taken = true then (s.pc.toNat + 2) % 65536 else s.pc.toNat := by
  cases taken with
  | true => exact BitVec.toNat_add _ _
  | false => rfl

/-- A skip, with its condition as a proposition about numbers. -/
theorem exec_skip_toNat {i : Instr} {s : State} {c : Bool} (h : skipCondition i s = some c) {p : Prop} [Decidable p]
    (hp : c = true ↔ p) :
    ∃ t, exec i s = .next t ∧ t = { s with pc := t.pc } ∧
      t.pc.toNat = if p then (s.pc.toNat + 2) % 65536 else s.pc.toNat := by
  refine ⟨_, exec_skip h, s.skipIf_frame c, ?_⟩
  rw [State.skipIf_pc_toNat]
  exact if_congr hp rfl rfl

end Sys2Proof.Machine

namespace Sys2Proof

open Machine

/-- Settles O27: RTS is one record update, whose `pc` is the word on top of the stack. -/
theorem rtsPopsThePc : Obligations.RtsPopsThePc := by
  intro s
  refine ⟨_, exec_rts s, rfl, ?pc, BitVec.toNat_add _ _⟩
  have h := State.readWord_toNat s s.sp
  rwa [State.readByte, State.readByte, memIndex_succ] at h

/-- Settles O28: CALL is a push, whose bytes are the law of a byte read after a push, and a record update of `pc`. -/
theorem callPushesTheReturnAddress : Obligations.CallPushesTheReturnAddress := by
  intro nnn s h
  refine ⟨_, exec_call nnn s, rfl, zextAddr_toNat nnn, ?sp, ?high, ?low, fun a hhigh hlow => ?frame⟩
  case sp => exact (BitVec.toNat_sub _ _).trans (by rw [Nat.add_comm]; rfl)
  case high =>
    have hread := State.readByte_push h s.pc (s.sp - 2)
    rw [if_neg (memIndex_ne_succ _), if_pos rfl] at hread
    exact (congrArg BitVec.toNat hread).trans (highByte_toNat _)
  case low =>
    have hread := State.readByte_push h s.pc (s.sp - 2 + 1)
    rw [if_pos rfl] at hread
    exact (congrArg BitVec.toNat hread).trans (lowByte_toNat _)
  case frame =>
    have hread := State.readByte_push h s.pc a
    rwa [if_neg hlow, if_neg hhigh] at hread

/-- Settles O29: the return state has the stack of the push, on top of which is the pushed word. -/
theorem returnUndoesCall : Obligations.ReturnUndoesCall := by
  intro nnn s t h hcall u hmem hsp
  rw [exec_call] at hcall
  cases hcall
  have htop : u.stackTop = (s.push s.pc).stackTop := State.stackTop_congr hmem hsp
  refine ⟨_, exec_rts u, htop.trans (State.stackTop_push h s.pc), ?sp⟩
  have hpush : u.sp = s.sp - 2 := hsp
  change u.sp + 2 = s.sp
  rw [hpush, BitVec.sub_add_cancel]

/-- Settles O30: at the default setting JUMP is one `jumpTo`. -/
theorem jumpGoesToNnnAndHaltsOnItself : Obligations.JumpGoesToNnnAndHaltsOnItself := by
  intro nnn a s hpc hq
  have hhalt := State.jumpTo_halt_toNat hpc (zextAddr nnn)
  rw [zextAddr_toNat] at hhalt
  exact ⟨_, exec_jump_default nnn hq, s.jumpTo_frame _, zextAddr_toNat nnn, hhalt⟩

/-- Settles O31: so is JUMP_V0, and its target is the sum. -/
theorem jumpV0AddsV0 : Obligations.JumpV0AddsV0 := by
  intro nnn a s hpc hq
  have hhalt := State.jumpTo_halt_toNat hpc (zextAddr nnn + zextByte (s.readV Reg.v0))
  rw [jumpV0Target_toNat] at hhalt
  exact ⟨_, exec_jumpV0_default nnn hq, s.jumpTo_frame _, jumpV0Target_toNat nnn _, hhalt⟩

/-- Settles O32: `exec_skip_toNat` for each of the four conditions; two bytes are equal when their numbers are. -/
theorem compareSkipsMoveThePcOnly : Obligations.CompareSkipsMoveThePcOnly := by
  intro x y nn s
  refine ⟨exec_skip_toNat rfl ?_, exec_skip_toNat rfl ?_, exec_skip_toNat rfl ?_, exec_skip_toNat rfl ?_⟩
  all_goals simp only [decide_eq_true_eq, ne_eq, BitVec.toNat_inj]

/-- Settles O33: the step runs the skip on the advanced state, where its condition reads as it did before. -/
theorem skipPassesOverOneInstruction : Obligations.SkipPassesOverOneInstruction := by
  intro i c s hq hh hf hd hc
  have hadvance : skipCondition i s.advance = skipCondition i s := by cases i <;> rfl
  have hstep : step s = .next (s.advance.skipIf c) := by
    rw [step_of_decoded (takesStep_of_nil hq hh hf) hd, State.dequeue_of_nil hq, exec_skip (hadvance.trans hc)]
  refine ⟨_, hstep, s.advance.skipIf_frame c, ?pc⟩
  rw [State.skipIf_pc_toNat]
  cases c <;> simp [BitVec.toNat_add, Nat.add_assoc]

/-- Settles O49: `exec_skip_toNat` for the two tests of a level. -/
theorem keySkipsTestTheLevel : Obligations.KeySkipsTestTheLevel := by
  intro x s
  refine ⟨exec_skip_toNat rfl Iff.rfl, exec_skip_toNat rfl ?_⟩
  rw [Bool.not_eq_true']

end Sys2Proof
end

section
/-! Proofs of the obligations about the flag-writing and random instructions and the quirk flags (spec/41_alu.md,
spec/00_scope.md section 4). -/

namespace Sys2Proof.Machine

/-! ### The two write orders -/

section
variable {x : Reg} (s : State) (b f : Byte)

/-- With X other than F both orders leave the result in VX and the flag in VF (R23). -/
theorem writesWithFlag_resultThenFlag (hx : x ≠ Reg.vf) : WritesWithFlag x b f s (s.writeResultThenFlag x b f) := by
  refine ⟨s.writeResultThenFlag_frame x b f, ?_, ?_, fun z hz hvf => ?_⟩
  · rw [State.readV_writeResultThenFlag, if_neg hx, if_pos rfl]
  · rw [State.readV_writeResultThenFlag, if_pos rfl]
  · rw [State.readV_writeResultThenFlag, if_neg hvf, if_neg hz]

theorem writesWithFlag_flagThenResult (hx : x ≠ Reg.vf) : WritesWithFlag x b f s (s.writeFlagThenResult x b f) := by
  refine ⟨s.writeFlagThenResult_frame x b f, ?_, ?_, fun z hz hvf => ?_⟩
  · rw [State.readV_writeFlagThenResult, if_pos rfl]
  · rw [State.readV_writeFlagThenResult, if_neg hx.symm, if_pos rfl]
  · rw [State.readV_writeFlagThenResult, if_neg hz, if_neg hvf]

/-- With X = F the later write is what remains (R153). -/
theorem writesOnly_resultThenFlag : WritesOnly Reg.vf f s (s.writeResultThenFlag Reg.vf b f) := by
  refine ⟨s.writeResultThenFlag_frame _ b f, ?_, fun z hz => ?_⟩
  · rw [State.readV_writeResultThenFlag, if_pos rfl]
  · rw [State.readV_writeResultThenFlag, if_neg hz, if_neg hz]

theorem writesOnly_flagThenResult : WritesOnly Reg.vf b s (s.writeFlagThenResult Reg.vf b f) := by
  refine ⟨s.writeFlagThenResult_frame _ b f, ?_, fun z hz => ?_⟩
  · rw [State.readV_writeFlagThenResult, if_pos rfl]
  · rw [State.readV_writeFlagThenResult, if_neg hz, if_neg hz]

end

/-! ### Results and flags as numbers -/

section
variable (a b : Byte)

theorem flagByte_decide_toNat (p : Prop) [Decidable p] : (flagByte (decide p)).toNat = if p then 1 else 0 := by
  rw [flagByte_toNat]
  by_cases hp : p <;> simp [hp]

theorem carryFlag_toNat : (carryFlag a b).toNat = if a.toNat + b.toNat > 255 then 1 else 0 :=
  flagByte_decide_toNat _

theorem noBorrowFlag_toNat : (noBorrowFlag a b).toNat = if a.toNat ≥ b.toNat then 1 else 0 :=
  flagByte_decide_toNat _

theorem byte_sub_toNat : (a - b).toNat = (a.toNat + 256 - b.toNat) % 256 := by
  rw [BitVec.toNat_sub]
  omega

theorem byte_shr_toNat : (a >>> 1).toNat = a.toNat / 2 := by
  rw [BitVec.toNat_ushiftRight, Nat.shiftRight_eq_div_pow]

theorem byte_shl_toNat : (a <<< 1).toNat = a.toNat * 2 % 256 := by
  rw [BitVec.toNat_shiftLeft, Nat.shiftLeft_eq]

theorem lowBitFlag_toNat : (lowBitFlag a).toNat = a.toNat % 2 := by
  rw [lowBitFlag, BitVec.toNat_and]
  exact Nat.and_one_is_mod _

theorem highBitFlag_toNat : (highBitFlag a).toNat = a.toNat / 128 := by
  rw [highBitFlag, BitVec.toNat_and, BitVec.toNat_ushiftRight, Nat.shiftRight_eq_div_pow]
  refine (Nat.and_one_is_mod _).trans ?_
  omega

theorem and_mask_and_not_mask : (a &&& b) &&& ~~~b = 0 := by
  rw [BitVec.and_assoc, BitVec.and_not_self]
  exact BitVec.and_zero

theorem and_mask_toNat_le : (a &&& b).toNat ≤ b.toNat := by
  rw [BitVec.toNat_and]
  exact Nat.and_le_right

end

/-- A guarded effect at another setting (R8). -/
theorem atDefault_refused {ok : Bool} (h : ok = false) (s' : State) : atDefault ok s' = .refused .quirkSetting := by
  rw [h, atDefault_false]

section
variable (x y : Reg) {s : State} (h : s.quirks.shiftVy = false)
include h

theorem exec_shr_default : exec (.shr x y) s =
    .next (s.writeFlagThenResult x (s.readV x >>> 1) (lowBitFlag (s.readV x))) :=
  atDefault_next.2 ⟨by rw [h]; rfl, rfl⟩

theorem exec_shl_default : exec (.shl x y) s =
    .next (s.writeFlagThenResult x (s.readV x <<< 1) (highBitFlag (s.readV x))) :=
  atDefault_next.2 ⟨by rw [h]; rfl, rfl⟩

end

end Sys2Proof.Machine

namespace Sys2Proof

open Machine

/-- Settles O35: the two write orders with X other than F, and each result and flag as a number. -/
theorem addAndSubtractSetVf : Obligations.AddAndSubtractSetVf := by
  intro x y s hx
  refine ⟨⟨_, _, _, exec_add x y s, writesWithFlag_resultThenFlag s _ _ hx, ?_, ?_⟩,
    ⟨_, _, _, exec_sub x y s, writesWithFlag_flagThenResult s _ _ hx, ?_, ?_⟩,
    ⟨_, _, _, exec_subn x y s, writesWithFlag_flagThenResult s _ _ hx, ?_, ?_⟩⟩
  · exact BitVec.toNat_add _ _
  · exact carryFlag_toNat _ _
  · exact byte_sub_toNat _ _
  · exact noBorrowFlag_toNat _ _
  · exact byte_sub_toNat _ _
  · exact noBorrowFlag_toNat _ _

/-- Settles O36: both shifts write the flag first, and at the default setting they are not refused. -/
theorem shiftsSetVf : Obligations.ShiftsSetVf := by
  intro x y s hx hq
  exact ⟨⟨_, _, _, exec_shr_default x y hq, writesWithFlag_flagThenResult s _ _ hx, byte_shr_toNat _,
      lowBitFlag_toNat _⟩,
    ⟨_, _, _, exec_shl_default x y hq, writesWithFlag_flagThenResult s _ _ hx, byte_shl_toNat _,
      highBitFlag_toNat _⟩⟩

/-- Settles O37: with X = F the later of the two writes remains, the carry in ADD and the result in the others. -/
theorem flagRegisterAsDestination : Obligations.FlagRegisterAsDestination := by
  intro y s
  exact ⟨⟨_, _, exec_add 15 y s, writesOnly_resultThenFlag s _ _, carryFlag_toNat _ _⟩,
    ⟨_, _, exec_sub 15 y s, writesOnly_flagThenResult s _ _, byte_sub_toNat _ _⟩,
    ⟨_, _, exec_subn 15 y s, writesOnly_flagThenResult s _ _, byte_sub_toNat _ _⟩,
    fun hq => ⟨⟨_, _, exec_shr_default 15 y hq, writesOnly_flagThenResult s _ _, byte_shr_toNat _⟩,
      ⟨_, _, exec_shl_default 15 y hq, writesOnly_flagThenResult s _ _, byte_shl_toNat _⟩⟩⟩

/-- Settles O38: one write of VX and one more draw; the mask leaves no bit outside NN. -/
theorem rndIsADrawUnderTheMask : Obligations.RndIsADrawUnderTheMask := by
  intro x nn s
  have hread : (s.writeV x (Config.rnd8 s.draws &&& nn)).readV x = Config.rnd8 s.draws &&& nn :=
    s.readV_writeV_self x _
  refine ⟨_, exec_rnd x nn s, rfl, fun z hz => s.readV_writeV_ne _ hz, hread, ?outside, ?bound⟩
  case outside => exact (congrArg (· &&& ~~~nn) hread).trans (and_mask_and_not_mask _ nn)
  case bound => exact (congrArg BitVec.toNat hread).trans_le (and_mask_toNat_le _ nn)

/-- Settles O39: each of these instructions is a guarded effect, and its guard fails. -/
theorem otherQuirkSettingsAreRefused : Obligations.OtherQuirkSettingsAreRefused := by
  intro x y n nnn s
  refine ⟨fun h => ⟨?_, ?_⟩, fun h => ⟨?_, ?_⟩, fun h => ⟨?_, ?_⟩, fun h => ?_, fun h => ⟨?_, ?_⟩⟩
  all_goals exact atDefault_refused (by simp [h]) _

end Sys2Proof
end

section
/-! Proofs of the obligations about the glyph address and the block transfers (spec/42_index_memory.md). -/

namespace Sys2Proof.Machine

/-- Five times a byte does not reach 65536 (R162). -/
theorem glyphAddr_toNat (vx : Byte) : (glyphAddr vx).toNat = 5 * vx.toNat := by
  have hfont : (Config.fontBase).toNat = 0 := rfl
  have hbytes : (BitVec.ofNat 16 Config.fontGlyphBytes).toNat = 5 := rfl
  rw [glyphAddr, BitVec.toNat_add, BitVec.toNat_mul, zextByte_toNat, hfont, hbytes]
  omega

theorem State.indexAfterBlock_toNat (s : State) (x : Reg) :
    (s.indexAfterBlock x).toNat = (s.i.toNat + x.val + 1) % 65536 := by
  rw [State.indexAfterBlock, BitVec.toNat_add, BitVec.toNat_ofNat]
  omega

theorem memIndex_indexed (s : State) (k : Nat) : memIndex (s.indexed k) = (s.i.toNat + k) % 4096 := memIndex_add s.i k

section
variable (x : Reg) (s : State) (h : s.quirks.loadStoreIncI = true)
include h

theorem exec_storem_default : exec (.storem x) s = .next { s.storeBlock x with i := s.indexAfterBlock x } :=
  atDefault_next.2 ⟨h, rfl⟩

theorem exec_loadm_default : exec (.loadm x) s = .next { s.loadBlock x with i := s.indexAfterBlock x } :=
  atDefault_next.2 ⟨h, rfl⟩

/-- FX65, register by register (R165). -/
theorem exec_loadm_reads : ∃ t, exec (.loadm x) s = .next t ∧ t = { s with v := t.v, i := t.i } ∧
    t.i.toNat = (s.i.toNat + x.val + 1) % 65536 ∧
    ∀ z : Reg, t.readV z = if z ≤ x then s.readByte (s.indexed z.val) else s.readV z :=
  ⟨_, exec_loadm_default x s h,
    congrArg (fun t : State => { t with i := s.indexAfterBlock x }) (s.loadBlock_frame x),
    s.indexAfterBlock_toNat x, s.readV_loadBlock x⟩

end

end Sys2Proof.Machine

namespace Sys2Proof

open Machine

/-- Settles O41: an unlisted byte of the store below 0x050 reads as the font. -/
theorem spritecharPointsAtTheGlyph : Obligations.SpritecharPointsAtTheGlyph := by
  intro x s
  refine ⟨_, exec_spritechar x s, rfl, glyphAddr_toNat _, fun hmem hx r hr => ?glyph⟩
  rw [State.readByte, memIndex_indexed]
  change s.mem.read (((glyphAddr (s.readV x)).toNat + r) % 4096) = _
  rw [hmem, glyphAddr_toNat, Nat.mod_eq_of_lt (by omega)]
  rfl

/-- Settles O43: the frame, the block and the bytes outside it are the laws of `storeBlock`. -/
theorem storemStoresTheBlock : Obligations.StoremStoresTheBlock := by
  intro x s hwf hq
  exact ⟨_, exec_storem_default x s hq,
    congrArg (fun t : State => { t with i := s.indexAfterBlock x }) (s.storeBlock_frame x),
    s.indexAfterBlock_toNat x, fun j hj => State.readByte_storeBlock hwf hj,
    fun a ha => State.readByte_storeBlock_of_not hwf x a ha⟩

/-- Settles O44: the same from the laws of `loadBlock`. -/
theorem loadmLoadsTheBlock : Obligations.LoadmLoadsTheBlock := by
  intro x s hq
  obtain ⟨t, he, hframe, hi, hread⟩ := exec_loadm_reads x s hq
  refine ⟨t, he, hframe, hi, fun j hj => ?_, fun j hj => ?_⟩
  · rw [hread, if_pos hj, State.readByte, memIndex_indexed]
  · rw [hread, if_neg (not_le_of_gt hj)]

/-- Settles O45: with `I` set again the load reads the addresses of the store; without, the next ones. -/
theorem storemThenLoadmRestores : Obligations.StoremThenLoadmRestores := by
  intro x s t u hwf hq hstore humem huq
  rw [exec_storem_default x s hq] at hstore
  cases hstore
  have hti := s.indexAfterBlock_toNat x
  have hload : u.quirks.loadStoreIncI = true := by
    rw [huq, State.storeBlock_frame]
    exact hq
  obtain ⟨w, he, -, hwi, hread⟩ := exec_loadm_reads x u hload
  refine ⟨hti, fun hui => ⟨w, he, fun j hj => ?again, hui ▸ hwi⟩, fun hui => ⟨w, he, fun j hj => ?after⟩⟩
  case again =>
    rw [hread, if_pos hj, State.indexed_congr hui]
    exact (State.readByte_congr humem _).trans (State.readByte_storeBlock hwf hj)
  case after =>
    rw [hread, if_pos hj, State.readByte, memIndex_indexed, humem, hui]
    change (s.storeBlock x).mem.read (((s.indexAfterBlock x).toNat + j.val) % 4096) = _
    rw [hti]
    congr 1
    omega

end Sys2Proof
end

section
/-! Proofs of the obligations about SPRITE (spec/43_display.md R182 and R183): what a blit does, read through
`spriteCovers`, and what remains of it after a second one. -/

namespace Sys2Proof.Machine

section
variable (s : State) (x y : Reg) (n : Nat)

/-- A blit inverts the covered pixels of the grid (R182). -/
theorem State.blit_pixel {px py : Nat} (h : onGrid px py) :
    Framebuffer.pixel (s.blit x y n).fb px py =
      (Framebuffer.pixel s.fb px py).xor (s.spriteCovers x y n px py) := by
  rw [← State.coversRows_eq]
  exact Blit.drawSprite_pixel _ _ _ _ _ h

/-- A blit meets a lit pixel when a covered pixel of the grid was lit (R182). -/
theorem State.blit_hit : (s.blit x y n).hit = true ↔
    ∃ px py, onGrid px py ∧ s.spriteCovers x y n px py = true ∧ Framebuffer.pixel s.fb px py = true := by
  simp only [← State.coversRows_eq]
  exact (Blit.drawSprite_hit _ _ _ _ _).trans (or_iff_right Bool.false_ne_true)

/-- A blit changes the screen when some pixel of the grid is covered (R182). -/
theorem State.blit_changed : (s.blit x y n).changed = true ↔
    ∃ px py, onGrid px py ∧ s.spriteCovers x y n px py = true := by
  simp only [← State.coversRows_eq]
  exact (Blit.drawSprite_changed _ _ _ _ _).trans (or_iff_right Bool.false_ne_true)

/-- The state that SPRITE leaves. -/
def State.afterSprite : State :=
  { s.writeV Reg.vf (flagByte (s.blit x y n).hit) with
    fb := (s.blit x y n).fb, redraw := s.redraw || (s.blit x y n).changed }

theorem exec_sprite_next {t : State} : exec (.sprite x y n) s = .next t ↔
    (!s.quirks.spriteWrap && !s.quirks.fbBytePerPixel) = true ∧ t = s.afterSprite x y n := by
  rw [exec_sprite]
  exact atDefault_next

theorem State.afterSprite_readV_vf : (s.afterSprite x y n).readV Reg.vf = flagByte (s.blit x y n).hit :=
  s.readV_writeV_self _ _

end

theorem flagByte_eq_one (b : Bool) : flagByte b = 1 ↔ b = true := by cases b <;> decide

theorem flagByte_eq_zero (b : Bool) : flagByte b = 0 ↔ b = false := by cases b <;> decide

/-- Which pixels a sprite covers depends on its masked corner, `I` and memory alone. -/
theorem State.spriteCovers_congr {s t : State} {x y : Reg} (hmem : t.mem = s.mem) (hi : t.i = s.i)
    (hx : (t.readV x).toNat % 64 = (s.readV x).toNat % 64) (hy : (t.readV y).toNat % 32 = (s.readV y).toNat % 32)
    (n px py : Nat) : t.spriteCovers x y n px py = s.spriteCovers x y n px py := by
  simp only [State.spriteCovers, hx, hy, State.indexed_congr hi, State.readByte_congr hmem]

end Sys2Proof.Machine

namespace Sys2Proof

open Machine

/-- Settles O47: the pixels, the collision and `changed` are the laws of the blit, which VF and `redraw` hold. -/
theorem spriteInvertsTheCoveredPixels : Obligations.SpriteInvertsTheCoveredPixels := by
  intro x y n s hwrap hpacked
  have hok : (!s.quirks.spriteWrap && !s.quirks.fbBytePerPixel) = true := by rw [hwrap, hpacked]; rfl
  have hvf := s.afterSprite_readV_vf x y n
  refine ⟨s.afterSprite x y n, (exec_sprite_next s x y n).2 ⟨hok, rfl⟩, rfl, fun z hz => s.readV_writeV_ne _ hz,
    fun px py hg => s.blit_pixel x y n hg, fun hlit => ?lit, fun hdark => ?dark, ?redraw⟩
  case lit => exact hvf.trans ((flagByte_eq_one _).2 ((s.blit_hit x y n).2 hlit))
  case dark =>
    have hno : (s.blit x y n).hit = false := Bool.eq_false_iff.2 fun hhit => hdark ((s.blit_hit x y n).1 hhit)
    exact hvf.trans ((flagByte_eq_zero _).2 hno)
  case redraw =>
    rw [← s.blit_changed x y n]
    exact Bool.or_eq_true_iff

/-- Settles O48: the second blit covers the same pixels, so it inverts each of them back, and it meets a lit pixel where
the first one met a dark one. -/
theorem drawingTwiceRestoresTheScreen : Obligations.DrawingTwiceRestoresTheScreen := by
  intro x y n s t h hx hy
  obtain ⟨hok, rfl⟩ := (exec_sprite_next s x y n).1 h
  have hcovers : ∀ px py, (s.afterSprite x y n).spriteCovers x y n px py = s.spriteCovers x y n px py :=
    State.spriteCovers_congr (s := s) (t := s.afterSprite x y n) rfl rfl hx hy n
  have hfirst : ∀ px py, onGrid px py → Framebuffer.pixel (s.afterSprite x y n).fb px py =
      (Framebuffer.pixel s.fb px py).xor (s.spriteCovers x y n px py) := fun px py hg => s.blit_pixel x y n hg
  refine ⟨(s.afterSprite x y n).afterSprite x y n, (exec_sprite_next _ x y n).2 ⟨hok, rfl⟩, ?screen, ?collision⟩
  case screen =>
    refine Framebuffer.ext_pixel fun px py hg => ?_
    refine ((s.afterSprite x y n).blit_pixel x y n hg).trans ?_
    rw [hfirst px py hg, hcovers, Bool.xor_assoc, Bool.xor_self, Bool.xor_false]
  case collision =>
    have hvf := (s.afterSprite x y n).afterSprite_readV_vf x y n
    have hdark : ∀ px py, onGrid px py → s.spriteCovers x y n px py = true →
        (Framebuffer.pixel (s.afterSprite x y n).fb px py = true ↔ Framebuffer.pixel s.fb px py = false) := by
      intro px py hg hc
      rw [hfirst px py hg, hc, Bool.xor_true, Bool.not_eq_true']
    rw [show (15 : Reg) = Reg.vf from rfl, hvf, flagByte_eq_one, State.blit_hit]
    simp only [hcovers]
    exact exists_congr fun px => exists_congr fun py => and_congr_right fun hg => and_congr_right (hdark px py hg)

end Sys2Proof
end

section
/-! Proofs of the obligations about FX0A (spec/44_keypad.md R192 and R193): its three cases, and a whole wait. While a
wait goes on, the armed keys are those that the samples show up and later down; one of them that is up again ends it. -/

namespace Sys2Proof.Machine

/-! ### The three cases of one execution -/

section
variable {x : Reg} {s : State}

theorem exec_key_idle (h : s.kw = .idle) : exec (.key x) s = .next s.enterKeyWait := by
  change execKey x s = _
  rw [execKey, h]

theorem exec_key_resolves (h : s.kw = .waiting) {k : Fin 16} (hk : leastKey s.released = some k) :
    exec (.key x) s = .next (s.resolveKeyWait x k) := by
  change execKey x s = _
  rw [execKey, h, hk]

theorem exec_key_keeps (h : s.kw = .waiting) (hno : leastKey s.released = none) :
    exec (.key x) s = .next s.keepKeyWait := by
  change execKey x s = _
  rw [execKey, h, hno]

end

/-- The number of a key, as the byte that FX0A writes. -/
theorem keyByte_toNat (k : Fin 16) : (BitVec.ofNat 8 k.val).toNat = k.val := by
  rw [BitVec.toNat_ofNat]
  omega

/-! ### Samples of one key -/

/-- In the samples `ls` key `k` is up and later down. -/
def UpThenDown (ls : List KeyMask) (k : Fin 16) : Prop :=
  ∃ p q, p < q ∧ q < ls.length ∧ (ls.getD p 0).has k = false ∧ (ls.getD q 0).has k = true

section
variable {ls : List KeyMask} {l : KeyMask} {k : Fin 16}

theorem getD_snoc_of_lt {p : Nat} (h : p < ls.length) : (ls ++ [l]).getD p 0 = ls.getD p 0 :=
  List.getD_append ls [l] 0 p h

theorem getD_snoc_length : (ls ++ [l]).getD ls.length 0 = l := by
  rw [List.getD_append_right ls [l] 0 _ le_rfl, Nat.sub_self, List.getD_cons_zero]

theorem getLastD_eq_getD : ls.getLastD 0 = ls.getD (ls.length - 1) 0 := by
  rw [List.getLastD_eq_getLast?, List.getLast?_eq_getElem?, List.getD_eq_getElem?_getD]

/-- A sample that is not the last sample's value stands before it. -/
theorem lt_last_of_ne {q : Nat} {b : Bool} (hq : q < ls.length) (hk : (ls.getD q 0).has k = !b)
    (hlast : (ls.getLastD 0).has k = b) : q < ls.length - 1 := by
  have hne : q ≠ ls.length - 1 := by
    rintro rfl
    rw [← getLastD_eq_getD, hlast] at hk
    exact (Bool.eq_not_self b).1 hk
  omega

theorem not_upThenDown_singleton : ¬ UpThenDown [l] k := by
  rintro ⟨p, q, hpq, hq, -, -⟩
  rw [List.length_singleton] at hq
  omega

/-- One more sample completes an up-then-down where the last sample was up and it is down. -/
theorem upThenDown_snoc (hne : ls ≠ []) : UpThenDown (ls ++ [l]) k ↔
    UpThenDown ls k ∨ ((ls.getLastD 0).has k = false ∧ l.has k = true) := by
  have hpos : 0 < ls.length := List.length_pos_iff.2 hne
  constructor
  · rintro ⟨p, q, hpq, hq, hup, hdown⟩
    rw [List.length_append, List.length_singleton] at hq
    rw [getD_snoc_of_lt (by omega)] at hup
    by_cases hql : q < ls.length
    · exact .inl ⟨p, q, hpq, hql, hup, getD_snoc_of_lt hql ▸ hdown⟩
    · obtain rfl : q = ls.length := by omega
      rw [getD_snoc_length] at hdown
      cases hlast : (ls.getLastD 0).has k with
      | false => exact .inr ⟨rfl, hdown⟩
      | true =>
        have hp : p < ls.length - 1 := lt_last_of_ne hpq hup hlast
        exact .inl ⟨p, ls.length - 1, hp, by omega, hup, getLastD_eq_getD ▸ hlast⟩
  · rintro (⟨p, q, hpq, hq, hup, hdown⟩ | ⟨hup, hdown⟩)
    · refine ⟨p, q, hpq, by rw [List.length_append]; omega, ?_, ?_⟩
      · rwa [getD_snoc_of_lt (hpq.trans hq)]
      · rwa [getD_snoc_of_lt hq]
    · refine ⟨ls.length - 1, ls.length, by omega, by simp, ?_, ?_⟩
      · rwa [getD_snoc_of_lt (by omega), ← getLastD_eq_getD]
      · rwa [getD_snoc_length]

/-- One more sample completes a press-then-release where the key was up then down and it is up. -/
theorem pressedThenReleased_snoc : PressedThenReleased (ls ++ [l]) k ↔
    PressedThenReleased ls k ∨ (UpThenDown ls k ∧ l.has k = false) := by
  constructor
  · rintro ⟨p, q, r, hpq, hqr, hr, hup, hdown, hup'⟩
    rw [List.length_append, List.length_singleton] at hr
    rw [getD_snoc_of_lt (by omega)] at hup hdown
    by_cases hrl : r < ls.length
    · exact .inl ⟨p, q, r, hpq, hqr, hrl, hup, hdown, getD_snoc_of_lt hrl ▸ hup'⟩
    · obtain rfl : r = ls.length := by omega
      rw [getD_snoc_length] at hup'
      exact .inr ⟨⟨p, q, hpq, hqr, hup, hdown⟩, hup'⟩
  · rintro (⟨p, q, r, hpq, hqr, hr, hup, hdown, hup'⟩ | ⟨⟨p, q, hpq, hq, hup, hdown⟩, hup'⟩)
    · refine ⟨p, q, r, hpq, hqr, by rw [List.length_append]; omega, ?_, ?_, ?_⟩
      · rwa [getD_snoc_of_lt (by omega)]
      · rwa [getD_snoc_of_lt (by omega)]
      · rwa [getD_snoc_of_lt hr]
    · refine ⟨p, q, ls.length, hpq, hq, by simp, ?_, ?_, ?_⟩
      · rwa [getD_snoc_of_lt (hpq.trans hq)]
      · rwa [getD_snoc_of_lt hq]
      · rwa [getD_snoc_length]

/-- A key that was up then down, and has not come up again, is down in the last sample. -/
theorem down_of_upThenDown (h : UpThenDown ls k) (hno : ¬ PressedThenReleased ls k) :
    (ls.getLastD 0).has k = true := by
  obtain ⟨p, q, hpq, hq, hup, hdown⟩ := h
  by_contra hlast
  rw [Bool.not_eq_true] at hlast
  have hql : q < ls.length - 1 := lt_last_of_ne hq hdown hlast
  exact hno ⟨p, q, ls.length - 1, hpq, hql, by omega, hup, hdown, getLastD_eq_getD ▸ hlast⟩

end

/-! ### A whole wait -/

theorem keyCycles_snoc (x : Reg) (ls : List KeyMask) (l : KeyMask) (s : State) :
    keyCycles x (ls ++ [l]) s = keyCycle x l (keyCycles x ls s) := by
  rw [keyCycles, List.foldl_append]
  rfl

/-- FX0A of `s` waits at its address: it has sampled `prev` last and armed `armed`. -/
def State.waitingAt (s : State) (prev armed : KeyMask) : State :=
  { s with keys := prev, kw := .waiting, kwPrev := prev, kwArmed := armed }

/-- The waiting state as the next execution finds it, with new keys and `pc` advanced (R11). -/
def State.resampled (s : State) (prev armed l : KeyMask) : State :=
  { s.waitingAt prev armed with keys := l, pc := s.pc + 2 }

section
variable {x : Reg} {s : State} {prev armed l : KeyMask}

theorem State.resampled_released_has (k : Fin 16) :
    (s.resampled prev armed l).released.has k = (armed.has k && prev.has k && !l.has k) :=
  State.released_has _ k

theorem keyCycle_of_next {t : State} (h : exec (.key x) { s with keys := l, pc := s.pc + 2 } = .next t) :
    keyCycle x l s = t := by
  rw [keyCycle, h]

theorem keyCycle_idle (h : s.kw = .idle) : keyCycle x l s = s.waitingAt l 0 := by
  rw [keyCycle_of_next (exec_key_idle (s := { s with keys := l, pc := s.pc + 2 }) h)]
  simp [State.enterKeyWait, State.waitingAt]

theorem keyCycle_keeps (hno : leastKey (s.resampled prev armed l).released = none) :
    keyCycle x l (s.waitingAt prev armed) = s.waitingAt l (armed ||| (~~~prev &&& l)) := by
  rw [keyCycle_of_next (exec_key_keeps (s := s.resampled prev armed l) rfl hno)]
  simp [State.keepKeyWait, State.resampled, State.waitingAt, State.pressed]

theorem keyCycle_resolves {k : Fin 16} (hk : leastKey (s.resampled prev armed l).released = some k) :
    keyCycle x l (s.waitingAt prev armed) = (s.resampled prev armed l).resolveKeyWait x k :=
  keyCycle_of_next (exec_key_resolves (s := s.resampled prev armed l) rfl hk)

/-- While no press-then-release is complete the wait goes on: the snapshot is the last sample, and the armed keys are
those that were up and later down (R192, R193). -/
theorem keyCycles_waits (hkw : s.kw = .idle) {ls : List KeyMask} (hne : ls ≠ [])
    (hno : ∀ k, ¬ PressedThenReleased ls k) :
    ∃ armed, keyCycles x ls s = s.waitingAt (ls.getLastD 0) armed ∧ ∀ k, armed.has k = true ↔ UpThenDown ls k := by
  induction ls using List.reverseRecOn with
  | nil => exact absurd rfl hne
  | append_singleton ls l ih =>
    rw [keyCycles_snoc, List.getLastD_concat]
    by_cases hls : ls = []
    · subst hls
      refine ⟨0, keyCycle_idle hkw, fun k => ?_⟩
      have hnone : KeyMask.has 0 k = false := (KeyMask.eq_zero_iff 0).1 rfl k
      exact iff_of_false (Bool.eq_false_iff.1 hnone) not_upThenDown_singleton
    · have hno' : ∀ k, ¬ PressedThenReleased ls k := fun k hk => hno k (pressedThenReleased_snoc.2 (.inl hk))
      obtain ⟨armed, hwait, harmed⟩ := ih hls hno'
      have hrel : leastKey (s.resampled (ls.getLastD 0) armed l).released = none := by
        refine leastKey_eq_none.2 fun k => ?_
        rw [State.resampled_released_has]
        cases ha : armed.has k with
        | false => rfl
        | true =>
          have hup : l.has k = true := by
            by_contra hup
            exact hno k (pressedThenReleased_snoc.2 (.inr ⟨(harmed k).1 ha, Bool.eq_false_iff.2 hup⟩))
          rw [hup, Bool.not_true, Bool.and_false]
      refine ⟨_, hwait ▸ keyCycle_keeps hrel, fun k => ?_⟩
      rw [upThenDown_snoc hls, ← harmed k, KeyMask.has_or, KeyMask.has_and, KeyMask.has_not, Bool.or_eq_true,
        Bool.and_eq_true, Bool.not_eq_true']

/-- The keys released by one more sample are those whose press-then-release it completes (R192). -/
theorem resampled_released_iff {ls : List KeyMask} (hno : ∀ k, ¬ PressedThenReleased ls k)
    (harmed : ∀ k, armed.has k = true ↔ UpThenDown ls k) (k : Fin 16) :
    (s.resampled (ls.getLastD 0) armed l).released.has k = true ↔ PressedThenReleased (ls ++ [l]) k := by
  rw [State.resampled_released_has, pressedThenReleased_snoc, or_iff_right (hno k), ← harmed k, Bool.and_eq_true,
    Bool.and_eq_true, Bool.not_eq_true']
  constructor
  · rintro ⟨⟨ha, -⟩, hl⟩
    exact ⟨ha, hl⟩
  · rintro ⟨ha, hl⟩
    exact ⟨⟨ha, down_of_upThenDown ((harmed k).1 ha) (hno k)⟩, hl⟩

end

end Sys2Proof.Machine

namespace Sys2Proof

open Machine

/-- Settles O50: each case is one of the three outcomes of FX0A; the least released key is the one that the second case
names, and there is none in the third. -/
theorem keyWaitsAndResolves : Obligations.KeyWaitsAndResolves := by
  intro x s
  refine ⟨exec_key_idle, fun k hkw hk hleast => ?resolves, fun hkw hnone => ?keeps⟩
  case resolves =>
    simp only [← State.released_has] at hk hleast
    refine ⟨_, exec_key_resolves hkw (leastKey_eq_some.2 ⟨hk, hleast⟩), rfl, ?_, fun z hz => s.readV_writeV_ne _ hz⟩
    exact (congrArg BitVec.toNat (s.readV_writeV_self x _)).trans (keyByte_toNat k)
  case keeps =>
    simp only [← State.released_has] at hnone
    refine ⟨_, exec_key_keeps hkw (leastKey_eq_none.2 hnone), rfl, fun j => ?_⟩
    exact (KeyMask.has_or _ _ j).trans (congrArg (s.kwArmed.has j || ·) (s.pressed_has j))

/-- Settles O51: the wait goes on as `keyCycles_waits` says, and the sample that completes a press-then-release finds
the least key that has completed one as the least released key. -/
theorem keyWaitEndsAtTheFirstPressThenRelease : Obligations.KeyWaitEndsAtTheFirstPressThenRelease := by
  intro x s ls l hkw hne hno
  have hno' : ∀ k, ¬ PressedThenReleased ls k := fun k hk => hno ⟨k, hk⟩
  obtain ⟨armed, hwait, harmed⟩ := keyCycles_waits (x := x) hkw hne hno'
  refine ⟨by rw [hwait]; exact ⟨rfl, rfl, rfl⟩, fun k hk hleast => ?ends⟩
  have hreleased := resampled_released_iff (s := s) (l := l) hno' harmed
  have hleast' : leastKey (s.resampled (ls.getLastD 0) armed l).released = some k :=
    leastKey_eq_some.2 ⟨(hreleased k).2 hk, fun j hj =>
      Bool.eq_false_iff.2 fun hc => hleast j hj ((hreleased j).1 hc)⟩
  rw [keyCycles_snoc, hwait, keyCycle_resolves hleast']
  refine ⟨rfl, rfl, ?_, fun z hz => State.readV_writeV_ne _ _ hz⟩
  exact (congrArg BitVec.toNat (State.readV_writeV_self _ x _)).trans (keyByte_toNat k)

end Sys2Proof
end

section
/-! Proofs of the obligations about the host's events (spec/45_timers.md R203 and R204, spec/60_exceptions.md section 5,
spec/70_reset_and_hazards.md). Each event is performed as the head of the schedule, `step_event`. -/

namespace Sys2Proof.Machine

/-! ### Loading -/

/-- An index of the store, as an address, names that byte (R60). -/
theorem memIndex_ofNat {a : Nat} (h : a < 4096) : memIndex (BitVec.ofNat 16 a) = a := by
  rw [memIndex, BitVec.toNat_ofNat, Nat.mod_eq_of_lt (a := a) (by omega)]
  exact Nat.mod_eq_of_lt h

theorem memIndex_progBase_add (j : Nat) : memIndex (Config.progBase + BitVec.ofNat 16 j) = (0x200 + j) % 4096 :=
  memIndex_add Config.progBase j

section
variable {s : State} {rom : List Byte}

theorem State.load_of_le (h : rom.length ≤ 3584) : s.load rom = s.writeBytes Config.progBase rom := if_pos h

theorem State.load_of_lt (h : 3584 < rom.length) : s.load rom = s := if_neg (Nat.not_le_of_lt h)

/-- The image stands from 0x200 on (R243). -/
theorem State.load_mem_read (hwf : s.mem.wf = true) (h : rom.length ≤ 3584) {j : Nat} (hj : j < rom.length) :
    (s.load rom).mem.read (0x200 + j) = rom[j] := by
  have hread := State.readByte_writeBytes hwf Config.progBase rom (by omega) j hj
  rwa [← State.load_of_le h, State.readByte, memIndex_progBase_add, Nat.mod_eq_of_lt (by omega)] at hread

/-- Outside the image every byte of the store reads as before (R243). -/
theorem State.load_mem_read_of_not (hwf : s.mem.wf = true) (h : rom.length ≤ 3584) {a : Nat} (ha : a < 4096)
    (hout : a < 0x200 ∨ 0x200 + rom.length ≤ a) : (s.load rom).mem.read a = s.mem.read a := by
  have hread := State.readByte_writeBytes_of_not hwf Config.progBase (BitVec.ofNat 16 a) rom fun j hj => by
    rw [memIndex_progBase_add, memIndex_ofNat ha]
    omega
  rwa [← State.load_of_le h, State.readByte, State.readByte, memIndex_ofNat ha] at hread

end

/-! ### Reset -/

/-- Beyond the font an unlisted byte is 0 (R42). -/
theorem Memory.unlisted_of_le {a : Nat} (h : 80 ≤ a) : Memory.unlisted a = 0 :=
  List.getD_eq_default Config.font 0 h

theorem State.reset_readV (x : Reg) : State.reset.readV x = 0 := Vector.getElem_replicate _

end Sys2Proof.Machine

namespace Sys2Proof

open Machine

/-- Settles O53: a tick is two countdowns, each of them truncated subtraction. -/
theorem tickCountsBothTimersDown : Obligations.TickCountsBothTimersDown := by
  intro s rest hq
  exact ⟨_, step_event hq, rfl, countDown_toNat s.dt, countDown_toNat s.st⟩

/-- Settles O54: each event is one record update; that of a key is read by `keySet_has`. -/
theorem hostEventsChangeTheirFlagOnly : Obligations.HostEventsChangeTheirFlagOnly := by
  intro s rest
  exact ⟨fun k v hq => ⟨_, step_event hq, rfl, fun j => State.keySet_has { s with schedule := rest } k j v⟩,
    fun hq => step_event hq, fun hq => step_event hq⟩

/-- Settles O55: a load of at most 3584 bytes is one block write, which does not come around to 0x000. -/
theorem loadPlacesTheRom : Obligations.LoadPlacesTheRom := by
  intro s rom rest hwf hq
  refine ⟨fun hlen => ⟨_, step_event hq, State.load_frame _ rom, fun j hj => ?image, fun a ha hout => ?outside⟩,
    fun hlen => ?refused⟩
  case image => exact State.load_mem_read (s := { s with schedule := rest }) hwf hlen hj
  case outside => exact State.load_mem_read_of_not (s := { s with schedule := rest }) hwf hlen ha hout
  case refused => exact (step_event hq).trans (congrArg Host.Outcome.next (State.load_of_lt hlen))

/-- Settles O56: the fields of the reset state, whose memory lists nothing and whose screen is blank. -/
theorem resetValues : Obligations.ResetValues := by
  intro s rest hq
  exact ⟨_, step_event hq, rfl, rfl, rfl, State.reset_readV, rfl, rfl, fun a _ => rfl,
    fun a ha _ => Memory.unlisted_of_le ha, fun px py _ => Framebuffer.pixel_replicate_zero px py, rfl,
    (KeyMask.eq_zero_iff 0).1 rfl, rfl, rfl, rfl, rfl, rfl⟩

end Sys2Proof
end
